-- ==== Sys2Proof/Word.lean ====
section
/-! DEFINITION. The words of the block: bytes, command words, pulse codes, encoded channels (rule R6, 00_scope.md). -/

namespace Sys2Proof

/-- A byte, 8 bits (rule R6); also a channel value (rule R9). -/
abbrev Byte := BitVec 8

/-- A command word CW, 64 bits (rule R57, 30_encoding.md). -/
abbrev CommandWord := BitVec 64

/-- A pulse code or symbol, 3 bits (rules R50, R66, 30_encoding.md). -/
abbrev PulseCode := BitVec 3

/-- An encoded channel, 24 bits (rule R51, 30_encoding.md). -/
abbrev EncodedChannel := BitVec 24

end Sys2Proof
end

