-- ==== Sys2Proof/Config.lean ====
section
/-! DEFINITION. What one implementation fixes (CFG and the other parameters of rule R5, 00_scope.md) as a record, and the
open parameters and free values as constants with no body, of which nothing can be proved. The record's values for THIS
hardware stand in Machine/Params.lean. -/

namespace Sys2Proof

/-- A colour split into its three channels, in the public interface's order red, green, blue (rule R9). -/
structure Rgb where
  red   : Byte
  green : Byte
  blue  : Byte
  deriving DecidableEq, Repr

/-- The parameters of rule R5 (00_scope.md) that rules of the block read. The first six are the source's configuration
structure CFG (rule R14, 10_state.md); the last two are parameters beside it. No command writes any of them, and reset
leaves them (rules R14, R140), so they are an argument of the step function (`Machine.stepUnder`) and no field of State. -/
structure Cfg where
  /-- ONE, the code of a set source bit. -/
  one            : PulseCode
  /-- ZERO, the code of a clear source bit. -/
  zero           : PulseCode
  /-- LEAD_OFFSET, the number of leading all-zero slots. -/
  leadOffset     : Nat
  /-- TRAIL_ZERO_COUNT, the number of trailing all-zero slots. -/
  trailZeroCount : Nat
  /-- CLOCK_HZ, the SPI clock frequency requested at construction. -/
  clockHz        : BitVec 32
  /-- UNPACK, how a packed colour splits into red, green and blue. -/
  unpack         : BitVec 24 → Rgb
  /-- WORD_W, the width in bits of a platform word. -/
  wordW          : Nat
  /-- WIRE_MSB_FIRST: the DEVICE shifts each byte most significant bit first with no gap between bytes. -/
  wireMsbFirst   : Bool

/-- The constraint on CFG the rules need (rule R5): ONE and ZERO differ. -/
abbrev Cfg.Valid (c : Cfg) : Prop := c.one ≠ c.zero

/-- The DEVICE's answer to a request (rules R7 and R21). That `ask Transfer` may never yield is not a third answer: it is
the absence of one. -/
inductive Answer where
  | ok
  | fail
  deriving DecidableEq, Repr, Inhabited

/-- DEVICE_PATH, open (rule R5, decision D18). Log entry 15. -/
opaque Config.devicePath : String

/-- REQ_SET_CLOCK, the opaque numeric code of the clock-configuration request, open (rules R5, R55). Log entry 15. -/
opaque Config.reqSetClock : Nat

/-- REQ_TRANSFER, the opaque numeric code of the transfer request, open (rules R5, R56). Log entry 15. -/
opaque Config.reqTransfer : Nat

/-- WORD_W less 6, open (rule R5, decision D17). DEDUCED: rule R96 has CONSTRUCT 1 succeed with a data length of 45, which
must lie below 2 to the power WORD_W, so WORD_W is at least 6; nothing else is assumed of it. Log entry 5. -/
opaque Config.wordWAbove : Nat

/-- LINE_IDLE, the level of the data line outside a transfer (true is high), open with no default (rules R5, R108,
decision D12). Log entry 10. -/
opaque Config.lineIdle : Bool

/-- Free value: the answer to draw number n where `State.answers` lists none for an Open, SetClock or Map request
(rule R21: ok or fail, under no law). Log entry 2. -/
opaque Config.freeAnswer : Nat → Answer

/-- Free value: CLK where rule R18 calls it `any` (after reset, after a refused SetClock). Log entry 6. -/
opaque Config.freeClock : Nat → BitVec 32

/-- Free value: byte k of HWR as draw number n left it (rule R17, decision D10). Log entry 7. -/
opaque Config.freeByte : Nat → Nat → Byte

/-- Free value: whether a CONSTRUCT that failed after a successful Open emits a trailing Close (rule R83, decision D9).
Log entry 9. -/
opaque Config.freeClose : Nat → Bool

/-- Free value: how many bits of the frame a failed transfer had put on the data line (rules R88, R109, decision D13);
a value beyond the frame stands for all of it. Log entry 8. -/
opaque Config.freeSent : Nat → Nat

/-- Free value: the bits on the data line of a DEVICE that does not shift as WIRE_MSB_FIRST says (rule R101: then the
order is not known). Log entry 21. -/
opaque Config.freeBits : Nat → List Bool

end Sys2Proof
end

