-- ==== Sys2Proof/Syntax.lean ====
section
/-! DEFINITION. The instructions: one constructor per row of spec/opcode_table.json (rules R58 and R50, 30_encoding.md),
and the two forms in which a row's bits are presented. -/

namespace Sys2Proof

/-- The rows of the opcode table. The first five are HOST's commands. ZERO and ONE are not commands (the table says so):
they are the two pulse symbols, presented to the data line's shifter and never on the command port (log entry 11). -/
inductive Instr where
  /-- `CONSTRUCT n` (rule R81): led_count is a natural number (rule R6), of 32 bits in a well-formed instruction. -/
  | construct (ledCount : Nat)
  /-- `SETC i, r, g, b` (rules R84, R59): index is a natural number, of 32 bits in a well-formed instruction. -/
  | setc (index : Nat) (red green blue : Byte)
  /-- `SETP i, p` (rules R86, R60): packed is 24 bits, split by CFG.UNPACK only when the command runs. -/
  | setp (index : Nat) (packed : BitVec 24)
  /-- `COMMIT` (rule R87). -/
  | commit
  /-- `RELEASE` (rule R91). -/
  | release
  /-- The symbol ZERO, `100` (rule R50). -/
  | zero
  /-- The symbol ONE, `110` (rule R50). -/
  | one
  deriving DecidableEq, Repr

/-- The two forms of the table's column "format": a 64-bit command word (CW64, rule R57) and a 3-bit pulse symbol
(PULSE3, rule R50). -/
inductive Code where
  | command (w : CommandWord)
  | symbol (k : PulseCode)
  deriving DecidableEq, Repr

end Sys2Proof
end

