-- ==== Sys2Proof/WellFormed.lean ====
section
/-! DEFINITION. Which instructions a code can carry: the field N of the command word is 32 bits wide (rule R57,
30_encoding.md), so led_count and index lie below 2 to the power 32 (rule R59). The other operands have their width in
their type. -/

namespace Sys2Proof

/-- N is a 32-bit field (rules R57, R59). -/
abbrev fitsN (n : Nat) : Prop := n < 2 ^ 32

/-- The instruction's operands fit their fields. -/
def Instr.wellFormed : Instr → Bool
  | .construct ledCount => decide (fitsN ledCount)
  | .setc index _ _ _   => decide (fitsN index)
  | .setp index _       => decide (fitsN index)
  | .commit             => true
  | .release            => true
  | .zero               => true
  | .one                => true

/-- The instruction's operands fit their fields, as a proposition. -/
abbrev Instr.WellFormed (i : Instr) : Prop := i.wellFormed = true

end Sys2Proof
end

