-- ==== Sys2Proof/Decode.lean ====
section
/-! DEFINITION. The decoder, total on every code and rejecting by name, and the encoder; both from the tables of
30_encoding.md (rules R50, R57, R58, R59, R60, R61). After them the written form (rule R63), the pseudo-instruction BLANK
(rule R64) and the host's `decodeTableWord`. -/

namespace Sys2Proof

/-! ### The fields of a command word (rule R57) -/

/-- OP, bits 63:60. -/
def fieldOp (w : CommandWord) : BitVec 4 := w.extractLsb' 60 4
/-- Z, bits 59:56. -/
def fieldZ (w : CommandWord) : BitVec 4 := w.extractLsb' 56 4
/-- N, bits 55:24. -/
def fieldN (w : CommandWord) : BitVec 32 := w.extractLsb' 24 32
/-- C2, bits 23:16. -/
def fieldC2 (w : CommandWord) : Byte := w.extractLsb' 16 8
/-- C1, bits 15:8. -/
def fieldC1 (w : CommandWord) : Byte := w.extractLsb' 8 8
/-- C0, bits 7:0. -/
def fieldC0 (w : CommandWord) : Byte := w.extractLsb' 0 8
/-- C2:C1:C0, the packed colour, bits 23:0 (rule R60). -/
def fieldPacked (w : CommandWord) : BitVec 24 := w.extractLsb' 0 24

/-! ### Decoding -/

/-- Why a code is no instruction. -/
inductive DecodeError where
  /-- A command word that matches no row of the opcode map (rule R61). -/
  | illegalCommand
  /-- A 3-bit symbol other than ZERO and ONE: padding, or one the block cannot produce (rule R66). -/
  | noPulseRow
  deriving DecidableEq, Repr

/-- One row of the opcode map of rule R58: a word w is the command of the row iff `w &&& mask = match`, and `build`
assembles the row's operands from w. -/
structure OpcodeRow where
  matchBits : CommandWord
  mask      : CommandWord
  build     : CommandWord → Instr

/-- The opcode map (rule R58), with the operand assembly of rules R59 and R60. -/
def opcodeMap : List OpcodeRow :=
  [ { matchBits := 0x1000000000000000, mask := 0xFF00000000FFFFFF,
      build := fun w => .construct (fieldN w).toNat },
    { matchBits := 0x2000000000000000, mask := 0xFF00000000000000,
      build := fun w => .setc (fieldN w).toNat (fieldC2 w) (fieldC1 w) (fieldC0 w) },
    { matchBits := 0x3000000000000000, mask := 0xFF00000000000000,
      build := fun w => .setp (fieldN w).toNat (fieldPacked w) },
    { matchBits := 0x4000000000000000, mask := 0xFFFFFFFFFFFFFFFF,
      build := fun _ => .commit },
    { matchBits := 0x5000000000000000, mask := 0xFFFFFFFFFFFFFFFF,
      build := fun _ => .release } ]

/-- w is a command of the row (rule R58). -/
def OpcodeRow.matches (r : OpcodeRow) (w : CommandWord) : Bool := w &&& r.mask == r.matchBits

/-- Decoding of a command word (rules R58, R61). -/
def decodeCommand (w : CommandWord) : Except DecodeError Instr :=
  match opcodeMap.find? (fun r => r.matches w) with
  | some r => .ok (r.build w)
  | none   => .error .illegalCommand

/-- Decoding of a pulse symbol, the codes of ZERO and ONE given (rule R50). -/
def decodeSymbol (zero one k : PulseCode) : Except DecodeError Instr :=
  if k = zero then .ok .zero
  else if k = one then .ok .one
  else .error .noPulseRow

/-- Decoding of any code, ZERO being `100` and ONE `110` as the opcode table has them (rule R50). -/
def decode : Code → Except DecodeError Instr
  | .command w => decodeCommand w
  | .symbol k  => decodeSymbol 0b100 0b110 k

/-- Decoding of any code under a configuration: ZERO and ONE are CFG's (rule R14), the command words are fixed. -/
def decodeUnder (c : Cfg) : Code → Except DecodeError Instr
  | .command w => decodeCommand w
  | .symbol k  => decodeSymbol c.zero c.one k

/-! ### Encoding -/

/-- A command word from its fields, the most significant first (rule R57); Z is 0. -/
def commandWord (op : BitVec 4) (n : BitVec 32) (c2 c1 c0 : Byte) : CommandWord :=
  op ++ (0 : BitVec 4) ++ n ++ c2 ++ c1 ++ c0

/-- The code of an instruction (rules R50, R58, R59, R60, R63). -/
def encode : Instr → Code
  | .construct n   => .command (commandWord 0x1 (BitVec.ofNat 32 n) 0 0 0)
  | .setc i r g b  => .command (commandWord 0x2 (BitVec.ofNat 32 i) r g b)
  | .setp i p      => .command (commandWord 0x3 (BitVec.ofNat 32 i)
                        (p.extractLsb' 16 8) (p.extractLsb' 8 8) (p.extractLsb' 0 8))
  | .commit        => .command (commandWord 0x4 0 0 0 0)
  | .release       => .command (commandWord 0x5 0 0 0 0)
  | .zero          => .symbol 0b100
  | .one           => .symbol 0b110

/-! ### Written form and pseudo-instructions -/

/-- The written form of a command, numbers in decimal (rule R63); a symbol is written by its name (rule R50). -/
def Instr.written : Instr → String
  | .construct n  => "CONSTRUCT " ++ toString n
  | .setc i r g b => "SETC " ++ toString i ++ ", " ++ toString r.toNat ++ ", " ++ toString g.toNat ++ ", "
                      ++ toString b.toNat
  | .setp i p     => "SETP " ++ toString i ++ ", " ++ toString p.toNat
  | .commit       => "COMMIT"
  | .release      => "RELEASE"
  | .zero         => "ZERO"
  | .one          => "ONE"

/-- The pseudo-instruction BLANK for a strip of n LEDs (rule R64): SETC i, 0, 0, 0 for every i in ascending order, then
COMMIT. It is HOST's sequence and no command (rule R94). -/
def blank (n : Nat) : List Instr := (List.range n).map (fun i => .setc i 0 0 0) ++ [.commit]

/-- A packed colour from three channels (rule R64): (r << 16) | (g << 8) | b. -/
def packRgb (r g b : Byte) : BitVec 24 :=
  (r.setWidth 24 <<< 16) ||| (g.setWidth 24 <<< 8) ||| b.setWidth 24

/-! ### The host's reading of the opcode table -/

/-- The code whose bits are w, of a row the table gives nbits bits in whole bytes: a row of at most one byte is a pulse
symbol, any other a command word whose bits above nbits are 0. -/
def tableCode (nbits w : Nat) : Code :=
  if nbits ≤ 8 then .symbol (BitVec.ofNat 3 w) else .command (BitVec.ofNat 64 w)

/-- The instruction the decoder reads from a table row's bits; a byte with a bit above the symbol's three is refused. -/
def decodeTableWord (nbits w : Nat) : Option Instr :=
  if nbits ≤ 8 ∧ 8 ≤ w then none
  else match decode (tableCode nbits w) with
    | .ok i    => some i
    | .error _ => none

end Sys2Proof
end

