-- ==== Sys2Proof/Machine/State.lean ====
section
/-! DEFINITION. The state of the block as plain data (10_state.md), the reasons a step can stop, and the state after reset
(rule R25). The model's own inputs and bookkeeping stand in the same structure, marked as such. -/

namespace Sys2Proof.Machine

/-- A memory of bytes as a list of (address, byte) pairs in one canonical form (`Memory.wf`, Machine/Ops.lean):
addresses strictly rising, no entry 0. An address not listed reads as 0: a byte of IMG not written since CONSTRUCT is 0
(rules R16, R41). -/
abbrev Memory := List Host.Cell

/-- The transfer descriptor XFER (rule R19): two platform-word-sized unsigned integers, carried as numbers (rule R48). -/
structure Xfer where
  /-- CMD_LEN, the length of an unused, zero command segment. -/
  cmdLen  : Nat
  /-- DATA_LEN, the length of the data segment. -/
  dataLen : Nat
  deriving DecidableEq, Repr

/-- What HWR holds (rule R17). -/
inductive Hwr where
  /-- The copy COMMIT made, until the DEVICE has answered. -/
  | copied (img : Memory)
  /-- Every byte `any`: byte k is the free value `Config.freeByte n k` (log entry 7). -/
  | drawn (n : Nat)
  deriving DecidableEq, Repr

/-- What exists exactly while PHASE is USABLE (rules R15, R16, R17, R23 b). -/
structure Session where
  /-- LED_COUNT (rule R15). -/
  ledCount : Nat
  /-- IMG, the logical image (rule R16). -/
  img      : Memory
  /-- HWR, the hardware-mapped region (rule R17). -/
  hwr      : Hwr
  /-- The transfer the DEVICE has not answered yet, if one is in flight: COMMIT between its two steps (rule R87). -/
  xfer     : Option Xfer
  deriving DecidableEq, Repr

/-- PHASE (rule R13), with LED_COUNT and the two arrays folded into USABLE as rule R15 allows. -/
inductive Phase where
  | unbuilt
  | usable (x : Session)
  | released
  deriving DecidableEq, Repr

/-- The interface events of OUT (rule R20). -/
inductive Event where
  /-- `Open(DEVICE_PATH)`. -/
  | openDevice (path : String)
  /-- `SetClock(hz)`. -/
  | setClock (hz : BitVec 32)
  /-- `Map(len)`. -/
  | mapBuffer (len : Nat)
  /-- `Transfer(cmd_len, data_len, payload)`. -/
  | transfer (d : Xfer) (payload : List Byte)
  /-- `Unmap`. -/
  | unmap
  /-- `Close`. -/
  | close
  deriving DecidableEq, Repr

/-- The result of a command (rules R62, R120). -/
inductive Result where
  | ok
  | deviceUnavailable
  | configurationError
  | invalidIndex
  | transferError
  | notUsable
  | illegalCommand
  | invalidLedCount
  deriving DecidableEq, Repr

/-- What HOST can do to the block: present a command word (rule R57), or reset it between commands (rule R140). -/
inductive HostEvent where
  | command (w : CommandWord)
  | reset
  deriving DecidableEq, Repr

/-- The state of one block instance. -/
structure State where
  /-- PHASE, with LED_COUNT, IMG, HWR and the transfer in flight (rules R13, R15, R16, R17, R23). -/
  phase     : Phase
  /-- CLK, the DEVICE's clock setting in hertz (rule R18). -/
  clk       : BitVec 32
  /-- OUT, the interface events emitted, oldest first (rule R20). -/
  out       : List Event
  /-- The level of the data line, true for high (rules R25, R108). -/
  lineLevel : Bool
  /-- The frames shifted onto the data line, oldest first, each a gapless run of bits (rules R100, R101, R109);
  a transfer's bits stand here from its answer on (log entry 25). -/
  wire      : List (List Bool)
  /-- The RESULT codes returned to HOST, oldest first: a record of the block's output (rules R22, R154; log entry 4). -/
  results   : List Result
  /-- The model's own: what HOST will still do, next first (rules R12, R27, R140; log entries 1, 12). -/
  host      : List HostEvent
  /-- The model's own: the DEVICE's answers still to come, next first (rules R21, R27; log entry 2). -/
  answers   : List Answer
  /-- The model's own: symbols presented to the DEVICE's shifter by themselves, next first (rule R50; log entry 11). -/
  symbols   : List PulseCode
  /-- The model's own: the index of the next free value (log entry 18). -/
  draws     : Nat
  deriving DecidableEq, Repr

/-- Why the machine stops. -/
inductive Fault where
  /-- A store to an address at or beyond BUF_LEN, which does not exist (rule R30). Raised by `Session.store` alone. Safe:
  the index check of rule R84 keeps every store inside IMG, and no step raises it. -/
  | noSuchAddress (addr : Nat)
  deriving DecidableEq, Repr

/-- Why an instruction has no meaning in the model. -/
inductive Refusal where
  /-- The instruction's arm has no meaning yet. Raised by no arm: every row of the opcode table has its meaning. Safe. -/
  | notModelled (mnemonic : String)
  deriving DecidableEq, Repr

/-- The state after reset (rules R25, R140, R141). CLK is `any`: free value number 0 (log entry 6). The data line is at
LINE_IDLE, open (log entry 10). No command, answer or symbol is waiting (log entries 1, 2, 11). -/
def State.reset : State where
  phase     := .unbuilt
  clk       := Config.freeClock 0
  out       := []
  lineLevel := Config.lineIdle
  wire      := []
  results   := []
  host      := []
  answers   := []
  symbols   := []
  draws     := 1

end Sys2Proof.Machine
end

