-- ==== Sys2Proof/Machine/Flags.lean ====
section
/-! DEFINITION. The block has no flags and no condition codes (rule R22, 10_state.md). What a command reports is its
result code, computed here (rules R62, R120). -/

namespace Sys2Proof.Machine

/-- The 4-bit code of a result (rule R62, decision D2); 0x8 to 0xF are never returned. -/
def Result.code : Result → BitVec 4
  | .ok                 => 0x0
  | .deviceUnavailable  => 0x1
  | .configurationError => 0x2
  | .invalidIndex       => 0x3
  | .transferError      => 0x4
  | .notUsable          => 0x5
  | .illegalCommand     => 0x6
  | .invalidLedCount    => 0x7

/-- The faults that are fatal to the session (rules R83, R121, R122, R132). -/
def Result.fatal : Result → Bool
  | .ok                 => false
  | .deviceUnavailable  => true
  | .configurationError => true
  | .invalidIndex       => false
  | .transferError      => false
  | .notUsable          => false
  | .illegalCommand     => false
  | .invalidLedCount    => false

end Sys2Proof.Machine
end

