-- ==== Sys2Proof/Machine/Params.lean ====
section
/-! DEFINITION. The values of CFG this hardware takes (rule R5, 00_scope.md, decisions D7, D11, D16), and the quantities
computed from CFG and LED_COUNT. -/

namespace Sys2Proof.Machine

/-- Bytes per slot: three channels of three bytes (rule R5). -/
def slotBytes : Nat := 9

/-- UNPACK of this hardware (rules R5, R60, decision D7): red = bits 23:16, green = bits 15:8, blue = bits 7:0. -/
def unpackRgb (p : BitVec 24) : Rgb :=
  { red := p.extractLsb' 16 8, green := p.extractLsb' 8 8, blue := p.extractLsb' 0 8 }

/-- The reference configuration of rule R5, with the open WORD_W as an argument. -/
def reference (wordW : Nat) : Cfg where
  one            := 0b110
  zero           := 0b100
  leadOffset     := 1
  trailZeroCount := 3
  clockHz        := 3000000
  unpack         := unpackRgb
  wordW          := wordW
  wireMsbFirst   := true

/-- The configuration of this hardware: the reference values (decision D16), WORD_W open (log entry 5). -/
def cfg : Cfg := reference (6 + Config.wordWAbove)

/-- BUF_LEN for a strip of n LEDs (rules R5, R93 a). -/
def bufLen (c : Cfg) (n : Nat) : Nat := slotBytes * (n + c.leadOffset + c.trailZeroCount)

/-- `LedCountOk(n)` (rule R82, decision D6): at least one LED, and BUF_LEN fits a platform word. -/
abbrev LedCountOk (c : Cfg) (n : Nat) : Prop := 1 ≤ n ∧ bufLen c n < 2 ^ c.wordW

end Sys2Proof.Machine
end

