-- ==== Sys2Proof/Machine/Encoder.lean ====
section
/-! DEFINITION. The Pulse Encoder ENC and its left inverse DEC (40_pulse_encoder.md), and the encoded channel's bytes
(rules R33, R52). Pure functions: the Pulse Encoder has no state (rule R72). -/

namespace Sys2Proof.Machine

/-- The code of one source bit (rule R50): ONE if it is set, ZERO if it is clear. -/
def pulseCode (c : Cfg) (b : Bool) : PulseCode := if b then c.one else c.zero

/-- The loop of rule R70 after the source bits 0 to n-1: the code of bit b stands at bit offset 3*b. -/
def encUpTo (c : Cfg) (v : Byte) : Nat → EncodedChannel
  | 0     => 0
  | b + 1 => encUpTo c v b ||| ((pulseCode c (v.getLsbD b)).setWidth 24 <<< (3 * b))

/-- ENC (rule R70): an 8-bit channel value to its 24-bit encoded channel. -/
def enc (c : Cfg) (v : Byte) : EncodedChannel := encUpTo c v 8

/-- Group b of an encoded channel: bits 3*b+2 .. 3*b (rule R51). -/
def group (w : EncodedChannel) (b : Nat) : PulseCode := w.extractLsb' (3 * b) 3

/-- The bits 0 to n-1 of DEC: bit b is 1 iff group b is ONE. -/
def decUpTo (c : Cfg) (w : EncodedChannel) : Nat → Byte
  | 0     => 0
  | b + 1 => decUpTo c w b ||| ((BitVec.ofBool (decide (group w b = c.one))).setWidth 8 <<< b)

/-- DEC (rule R73), the left inverse of ENC. -/
def dec (c : Cfg) (w : EncodedChannel) : Byte := decUpTo c w 8

/-- `be3` (rule R7): the three bytes of an encoded channel, most significant first (rules R33, R52). -/
def be3 (w : EncodedChannel) : List Byte := [w.extractLsb' 16 8, w.extractLsb' 8 8, w.extractLsb' 0 8]

/-- `spread(v)` of rule R74: bit 3*b is bit b of v, every other bit 0. -/
def spread (v : Byte) : EncodedChannel :=
  (List.range 8).foldl (fun w b => w ||| ((BitVec.ofBool (v.getLsbD b)).setWidth 24 <<< (3 * b))) 0

/-- The nibble table T of rule R75: the 12-bit encoding of a 4-bit value. -/
def encNibble (c : Cfg) (n : BitVec 4) : BitVec 12 :=
  (pulseCode c (n.getLsbD 3) ++ pulseCode c (n.getLsbD 2) ++ pulseCode c (n.getLsbD 1) ++
    pulseCode c (n.getLsbD 0)).setWidth 12

end Sys2Proof.Machine
end

