-- ==== Sys2Proof/Machine/Operands.lean ====
section
/-! DEFINITION. The operand forms of the commands: the one store addressing mode (rules R32, R84), the nine bytes of a
slot (rule R53), and the address map of the transfer buffer (rule R31). Fields of the command word are assembled in
Decode.lean (rules R59, R60). -/

namespace Sys2Proof.Machine

/-- The byte address of LED i's slot (rules R32, R93 b): 9 * (LEAD_OFFSET + i). -/
def slotBase (c : Cfg) (i : Nat) : Nat := slotBytes * (c.leadOffset + i)

/-- The nine bytes of a set LED slot (rules R32, R53): green, red, blue, though the operands come as red, green, blue. -/
def slotData (c : Cfg) (r g b : Byte) : List Byte := be3 (enc c g) ++ be3 (enc c r) ++ be3 (enc c b)

/-- Address k lies in a lead slot of the transfer buffer (rule R31). -/
abbrev InLead (c : Cfg) (k : Nat) : Prop := k < slotBytes * c.leadOffset

/-- Address k lies in a trail slot of a transfer buffer for n LEDs (rule R31). -/
abbrev InTrail (c : Cfg) (n k : Nat) : Prop := slotBytes * (c.leadOffset + n) ≤ k ∧ k < bufLen c n

/-- Address k lies in the slot of LED i (rule R31). -/
abbrev InSlot (c : Cfg) (i k : Nat) : Prop := slotBase c i ≤ k ∧ k < slotBase c i + slotBytes

end Sys2Proof.Machine
end

