-- ==== Sys2Proof/Machine/Frame.lean ====
section
/-! DEFINITION. The frame on the SPI data line (42_output_frame.md): the bits of the payload in time order (rules R101,
R102), the line levels of a symbol (rules R50, R104), the frame read in symbols (rule R66). -/

namespace Sys2Proof.Machine

/-- The bits of a byte in the order they leave: most significant first (rules R34, R101). Also the protocol bits of a
channel value in the order an LED receives them (rule R103). -/
def byteBits (b : Byte) : List Bool := (List.range 8).map (fun j => b.getLsbD (7 - j))

/-- The bits of a frame in time order: bytes in ascending address order, each most significant bit first, no gap between
them (rule R101). -/
def frameBits (payload : List Byte) : List Bool := payload.flatMap byteBits

/-- The line levels of a symbol in time order, true for high: the first-sent bit is the most significant (rules R50,
R104). -/
def symbolLevels (k : PulseCode) : List Bool := [k.getLsbD 2, k.getLsbD 1, k.getLsbD 0]

/-- Symbol m of a frame: the three bits from bit offset 3*m (rule R66), as the code whose levels they are. -/
def frameSymbol (bits : List Bool) (m : Nat) : PulseCode :=
  ((BitVec.ofBool (bits.getD (3 * m) false)).setWidth 3 <<< 2) |||
  ((BitVec.ofBool (bits.getD (3 * m + 1) false)).setWidth 3 <<< 1) |||
  (BitVec.ofBool (bits.getD (3 * m + 2) false)).setWidth 3

/-- What the DEVICE shifts out for a payload: its frame under WIRE_MSB_FIRST, else bits the rules do not fix (rule R101;
log entry 21). d is the draw's index. -/
def shiftedBits (c : Cfg) (d : Nat) (payload : List Byte) : List Bool :=
  if c.wireMsbFirst then frameBits payload else Config.freeBits d

/-- The length of a frame for n LEDs in bits (rules R102, R153): eight times BUF_LEN. -/
def frameLength (c : Cfg) (n : Nat) : Nat := 8 * bufLen c n

end Sys2Proof.Machine
end

