-- ==== Sys2Proof/Machine/Ops.lean ====
section
/-! DEFINITION. The named operations over memory, the state, the interface events and the DEVICE (the pseudocode
primitives of rule R7, 00_scope.md), the end of a command with a result (rule R125, 60_exceptions.md), reset (rule R140),
and the choice of what the machine does next (rules R10, R41, R80). -/

namespace Sys2Proof.Machine

/-! ### Memory -/

/-- The canonical form: addresses strictly rising, no entry 0. -/
def Memory.wf (m : Memory) : Bool :=
  decide (m.Pairwise (fun a b => a.1 < b.1)) && m.all (fun e => e.2 != 0)

/-- The byte at an address; 0 where the list has none (rules R16, R41). -/
def Memory.read : Memory → Nat → Byte
  | [],     _ => 0
  | e :: m, k => if e.1 = k then e.2 else Memory.read m k

/-- The memory without an entry for address k. -/
def Memory.erase (m : Memory) (k : Nat) : Memory := m.filter (fun e => e.1 != k)

/-- An entry put before the first one of a higher address. -/
def Memory.insert : Memory → Nat → Byte → Memory
  | [],     k, v => [(k, v)]
  | e :: m, k, v => if k < e.1 then (k, v) :: e :: m else e :: Memory.insert m k v

/-- `S[k] <- v` (rule R7), keeping the canonical form: writing 0 removes the entry. -/
def Memory.write (m : Memory) (k : Nat) (v : Byte) : Memory :=
  if v = 0 then Memory.erase m k else Memory.insert (Memory.erase m k) k v

/-- `MemWrite` (rule R7): the bytes from an address on, lowest address first. -/
def Memory.writeBytes : Memory → Nat → List Byte → Memory
  | m, _,    []      => m
  | m, base, v :: vs => Memory.writeBytes (Memory.write m base v) (base + 1) vs

/-- `MemRead` (rule R7): the n bytes from an address on, in address order. -/
def Memory.readBytes (m : Memory) (base n : Nat) : List Byte :=
  (List.range n).map (fun j => Memory.read m (base + j))

/-- The byte of HWR at an address (rule R17). The block never reads HWR (rule R46); the DEVICE does (rule R39). -/
def Hwr.read : Hwr → Nat → Byte
  | .copied m, k => Memory.read m k
  | .drawn n,  k => Config.freeByte n k

/-- The n bytes of HWR from address 0 on: what the DEVICE takes as payload (rules R36, R87). -/
def Hwr.payload (h : Hwr) (n : Nat) : List Byte := (List.range n).map (fun k => Hwr.read h k)

/-! ### The session -/

/-- BUF_LEN of a session (rule R15). -/
def Session.bufLen (c : Cfg) (x : Session) : Nat := Machine.bufLen c x.ledCount

/-- The byte of IMG at an address, none at an address that does not exist (rule R30). -/
def Session.imgByte (c : Cfg) (x : Session) (k : Nat) : Option Byte :=
  if k < x.bufLen c then some (Memory.read x.img k) else none

/-- The byte of HWR at an address, none at an address that does not exist (rule R30). -/
def Session.hwrByte (c : Cfg) (x : Session) (k : Nat) : Option Byte :=
  if k < x.bufLen c then some (Hwr.read x.hwr k) else none

/-- `MemWrite(IMG, base, 9, bs)` (rules R7, R84): the bytes into IMG, or the fault, with the first address that does not
exist, where one of them has none. -/
def Session.store (c : Cfg) (x : Session) (base : Nat) (vs : List Byte) : Except Fault Session :=
  if base + vs.length ≤ x.bufLen c then .ok { x with img := Memory.writeBytes x.img base vs }
  else .error (.noSuchAddress (max base (x.bufLen c)))

/-- The whole-array copy of IMG to HWR at the start of COMMIT (rule R87, step 1), with the descriptor (rule R19). -/
def Session.publish (c : Cfg) (x : Session) : Session :=
  { x with hwr := .copied x.img, xfer := some { cmdLen := 0, dataLen := x.bufLen c } }

/-- The response bytes over HWR when the DEVICE has answered (rule R87, step 2): every byte free value number n. -/
def Session.overwrite (x : Session) (n : Nat) : Session := { x with hwr := .drawn n, xfer := none }

/-! ### Updates of the state -/

/-- `PHASE <- p` (rule R7). -/
def State.setPhase (s : State) (p : Phase) : State := { s with phase := p }

/-- The DEVICE's clock setting. -/
def State.setClk (s : State) (hz : BitVec 32) : State := { s with clk := hz }

/-- `emit E` (rule R7). -/
def State.emit (s : State) (e : Event) : State := { s with out := s.out ++ [e] }

/-- The end of a command with a result (rule R125): the code is returned to HOST and nothing else happens. -/
def State.finish (s : State) (r : Result) : State := { s with results := s.results ++ [r] }

/-- `raise F` (rules R7, R125). There is no handler, no saved state and no mode change, so taking a fault is only this;
there is no return from one (rule R131). -/
def State.raise (s : State) (r : Result) : State := s.finish r

/-- `done` (rule R7). -/
def State.done (s : State) : State := s.finish .ok

/-- One free value has been drawn. -/
def State.drew (s : State) : State := { s with draws := s.draws + 1 }

/-- A gapless run of bits on the data line, and the level it leaves there (rules R100, R104). -/
def State.drive (s : State) (bits : List Bool) (level : Bool) : State :=
  { s with wire := s.wire ++ [bits], lineLevel := level }

/-- A symbol on the data line (rules R50, R104): its three levels, the last of which stays. -/
def State.driveSymbol (s : State) (k : PulseCode) : State := s.drive (symbolLevels k) (k.getLsbD 0)

/-! ### The DEVICE -/

/-- `ask Q` for Open, SetClock and Map (rules R7, R21): the next answer listed, or a free value where none is listed. -/
def State.ask (s : State) : Answer × State :=
  match s.answers with
  | a :: rest => (a, { s with answers := rest })
  | []        => (Config.freeAnswer s.draws, s.drew)

/-- CLK becomes `any` (rule R18). -/
def State.loseClk (s : State) : State := (s.setClk (Config.freeClock s.draws)).drew

/-- The end of a session whose CONSTRUCT failed after a successful Open (rule R83): RELEASED, and a trailing Close or
none, freely. -/
def State.abandon (s : State) : State :=
  if Config.freeClose s.draws then ((s.setPhase .released).emit .close).drew else (s.setPhase .released).drew

/-- The start of a session of n LEDs (rule R81): IMG all 0, HWR all `any`. -/
def State.beginSession (s : State) (n : Nat) : State :=
  (s.setPhase (.usable { ledCount := n, img := [], hwr := .drawn s.draws, xfer := none })).drew

/-- The request code an event's request is identified by, where it is a control request (rules R20, R55, R56, R136). -/
def Event.requestCode : Event → Option Nat
  | .openDevice _ => none
  | .setClock _   => some Config.reqSetClock
  | .mapBuffer _  => none
  | .transfer _ _ => some Config.reqTransfer
  | .unmap        => none
  | .close        => none

/-! ### Checks every command makes -/

/-- The phase check of every command but CONSTRUCT (rules R80, R126): NotUsable outside USABLE. -/
def State.whenUsable (s : State) (k : Session → Host.Outcome State Fault Refusal) :
    Host.Outcome State Fault Refusal :=
  match s.phase with
  | .usable x => k x
  | .unbuilt  => .next (s.raise .notUsable)
  | .released => .next (s.raise .notUsable)

/-! ### Reset and the next move -/

/-- The reset event (rules R25, R140): PHASE to UNBUILT, the arrays and LED_COUNT gone, OUT empty, CLK `any`, the data
line at LINE_IDLE; no request to the DEVICE. The records and inputs of the model stay (log entry 12). -/
def State.resetBlock (s : State) : State :=
  { s.loseClk with phase := .unbuilt, out := [], lineLevel := Config.lineIdle }

/-- A code that is no instruction: an illegal command word raises IllegalCommand whatever the phase (rules R61, R127); a
symbol without a row of its own only drives the line (rules R66, R104). -/
def State.reject (s : State) : Code → State
  | .command _ => s.raise .illegalCommand
  | .symbol k  => s.driveSymbol k

/-- The session whose transfer the DEVICE has not answered, if there is one. -/
def State.inFlight (s : State) : Option Session :=
  match s.phase with
  | .usable x => if x.xfer.isSome then some x else none
  | .unbuilt  => none
  | .released => none

/-- What the machine does next. -/
inductive Move where
  /-- A code is taken from its port and run in the state given. -/
  | run (w : Code) (s : State)
  /-- The DEVICE answers the transfer in flight. -/
  | answer (x : Session) (a : Answer) (s : State)
  /-- HOST resets the block. -/
  | reset (s : State)
  /-- Nothing: the block waits for the DEVICE (rule R89), or HOST issues nothing. -/
  | idle
  deriving DecidableEq, Repr

/-- The next move. A symbol at the shifter goes first (log entry 11). While a transfer is in flight only the DEVICE's
answer counts, and without one the block waits (rules R87, R89). Else HOST's next event (rules R10, R41, R80). -/
def State.nextMove (s : State) : Move :=
  match s.symbols with
  | k :: rest => .run (.symbol k) { s with symbols := rest }
  | [] =>
    match s.inFlight with
    | some x =>
      match s.answers with
      | a :: rest => .answer x a { s with answers := rest }
      | []        => .idle
    | none =>
      match s.host with
      | .command w :: rest => .run (.command w) { s with host := rest }
      | .reset :: rest     => .reset { s with host := rest }
      | []                 => .idle

/-- The state with a code placed where `nextMove` takes its next one: a symbol at the shifter, a command word at the head
of HOST's list with no symbol and no transfer in flight before it. -/
def State.withCode (s : State) : Code → State
  | .symbol k  => { s with symbols := k :: s.symbols }
  | .command w =>
    { s with
      host    := .command w :: s.host
      symbols := []
      phase   := match s.phase with
        | .usable x => .usable { x with xfer := none }
        | .unbuilt  => .unbuilt
        | .released => .released }

end Sys2Proof.Machine
end

