-- ==== Sys2Proof/Machine/Colour.lean ====
section
/-! DEFINITION. SETC and SETP (rules R84, R85, R86, 41_strip_buffer_ops.md): both run the one slot write. -/

namespace Sys2Proof.Machine

/-- The slot write (rule R84): the index check, then nine bytes into IMG, or none (rule R37). -/
def setColour (c : Cfg) (i : Nat) (r g b : Byte) (s : State) : Host.Outcome State Fault Refusal :=
  s.whenUsable fun x =>
    if i < x.ledCount then
      match x.store c (slotBase c i) (slotData c r g b) with
      | .ok y    => .next (s.setPhase (.usable y)).done
      | .error f => .fault f
    else .next (s.raise .invalidIndex)

/-- SETP (rule R86): the packed colour is split by CFG.UNPACK, then the slot write. -/
def setPacked (c : Cfg) (i : Nat) (p : BitVec 24) (s : State) : Host.Outcome State Fault Refusal :=
  setColour c i (c.unpack p).red (c.unpack p).green (c.unpack p).blue s

/-- SETC on this hardware. -/
def execSetc (i : Nat) (r g b : Byte) (s : State) : Host.Outcome State Fault Refusal := setColour cfg i r g b s

/-- SETP on this hardware. -/
def execSetp (i : Nat) (p : BitVec 24) (s : State) : Host.Outcome State Fault Refusal := setPacked cfg i p s

end Sys2Proof.Machine
end

