-- ==== Sys2Proof/Machine/Lifecycle.lean ====
section
/-! DEFINITION. CONSTRUCT and RELEASE (rules R81, R82, R83, R91, 41_strip_buffer_ops.md). -/

namespace Sys2Proof.Machine

/-- CONSTRUCT from `emit Map` on (rule R81). -/
def constructMap (c : Cfg) (n : Nat) (s : State) : State :=
  match (s.emit (.mapBuffer (bufLen c n))).ask with
  | (.ok, t)   => (t.beginSession n).done
  | (.fail, t) => t.abandon.raise .deviceUnavailable

/-- CONSTRUCT from `emit SetClock` on (rules R81, R18): the clock is set when the DEVICE accepts, and `any` when it
refuses. -/
def constructClock (c : Cfg) (n : Nat) (s : State) : State :=
  match (s.emit (.setClock c.clockHz)).ask with
  | (.ok, t)   => constructMap c n (t.setClk c.clockHz)
  | (.fail, t) => t.loseClk.abandon.raise .configurationError

/-- CONSTRUCT from `emit Open` on (rules R81, R83): after a refused open there is nothing to close. -/
def constructOpen (c : Cfg) (n : Nat) (s : State) : State :=
  match (s.emit (.openDevice Config.devicePath)).ask with
  | (.ok, t)   => constructClock c n t
  | (.fail, t) => (t.setPhase .released).raise .deviceUnavailable

/-- CONSTRUCT n (rules R81, R129): the phase, then the operand, then the DEVICE. -/
def construct (c : Cfg) (n : Nat) (s : State) : State :=
  match s.phase with
  | .unbuilt  => if LedCountOk c n then constructOpen c n s else s.raise .invalidLedCount
  | .usable _ => s.raise .notUsable
  | .released => s.raise .notUsable

/-- CONSTRUCT on this hardware. -/
def execConstruct (n : Nat) (s : State) : Host.Outcome State Fault Refusal := .next (construct cfg n s)

/-- RELEASE (rule R91): Unmap, Close, no answer asked, no frame sent; the arrays and LED_COUNT are gone. -/
def endSession (s : State) : State := (((s.emit .unmap).emit .close).setPhase .released).done

/-- RELEASE on this hardware. -/
def execRelease (s : State) : Host.Outcome State Fault Refusal := s.whenUsable (fun _ => .next (endSession s))

end Sys2Proof.Machine
end

