-- ==== Sys2Proof/Machine/Pulse.lean ====
section
/-! DEFINITION. The table's rows ZERO and ONE (rule R50, 30_encoding.md): not commands, but the two pulse symbols, whose
only effect is on the data line (rule R104, 42_output_frame.md; log entry 11). -/

namespace Sys2Proof.Machine

/-- ZERO (rules R50, R104): the line high for one bit time, low for two. -/
def execZero (s : State) : Host.Outcome State Fault Refusal := .next (s.driveSymbol cfg.zero)

/-- ONE (rules R50, R104): the line high for two bit times, low for one. -/
def execOne (s : State) : Host.Outcome State Fault Refusal := .next (s.driveSymbol cfg.one)

end Sys2Proof.Machine
end

