-- ==== Sys2Proof/Machine/Transfer.lean ====
section
/-! DEFINITION. COMMIT (rules R87 to R90, 41_strip_buffer_ops.md): its first step is the command's, its second the
DEVICE's answer. -/

namespace Sys2Proof.Machine

/-- COMMIT, step 1 (rule R87): IMG copied to HWR, the request issued with HWR's bytes as payload; no result yet. What the data
line has received while the transfer is unanswered the spec does not say; nothing is put on it here (DESIGN CHOICE, log
entry 25). -/
def publishImage (c : Cfg) (x : Session) (s : State) : State :=
  (s.setPhase (.usable (x.publish c))).emit
    (.transfer { cmdLen := 0, dataLen := x.bufLen c } (Hwr.payload (x.publish c).hwr (x.bufLen c)))

/-- COMMIT, step 1, with its phase check. -/
def commit (c : Cfg) (s : State) : Host.Outcome State Fault Refusal :=
  s.whenUsable fun x => .next (publishImage c x s)

/-- COMMIT on this hardware. -/
def execCommit (s : State) : Host.Outcome State Fault Refusal := commit cfg s

/-- The bits a transfer put on the data line (rules R88, R100, R109): the whole frame when the DEVICE answers ok, some
prefix when it answers fail. The DEVICE takes the payload from HWR (rules R39, R43). -/
def bitsSent (c : Cfg) (x : Session) (d : Nat) : Answer → List Bool
  | .ok   => shiftedBits c d (Hwr.payload x.hwr (x.bufLen c))
  | .fail => (shiftedBits c d (Hwr.payload x.hwr (x.bufLen c))).take (Config.freeSent d)

/-- The result of COMMIT for an answer (rules R87, R124). -/
def transferResult : Answer → Result
  | .ok   => .ok
  | .fail => .transferError

/-- COMMIT, step 2 (rules R87, R88): the frame has left, the DEVICE has overwritten HWR, the result is returned; the line
is outside a transfer again (rule R108). All bits of the transfer come onto `wire` here, with the answer: until then, and
for ever if it never comes, the transfer has put no bit there and `lineLevel` stays (DESIGN CHOICE, log entry 25). -/
def answerTransfer (c : Cfg) (x : Session) (a : Answer) (s : State) : State :=
  ((s.drive (bitsSent c x s.draws a) Config.lineIdle).setPhase (.usable (x.overwrite s.draws))).drew.finish
    (transferResult a)

end Sys2Proof.Machine
end

