-- ==== Sys2Proof/Machine/Configured.lean ====
section
/-! DEFINITION. The step function with CFG as an argument (rules R14, R27, 10_state.md): what one step does, given the
configuration, and the machine of any configuration. This hardware's `exec` and `step` (Dispatch.lean, Step.lean) are this
machine at `cfg`. -/

namespace Sys2Proof.Machine

/-- What one step does under a configuration, given its decoder and its meanings (rules R10, R80). HOST's command is one
step; COMMIT is two, the second of them the DEVICE's answer (rules R10, R87). A word that is no command raises
IllegalCommand (rule R127). Waiting and idling leave the state as it is (rule R89; log entry 3). -/
def runMove (c : Cfg) (dec : Code → Except DecodeError Instr) (run : Instr → State → Host.Outcome State Fault Refusal)
    (s : State) : Host.Outcome State Fault Refusal :=
  match s.nextMove with
  | .run w t =>
    match dec w with
    | .ok i    => run i t
    | .error _ => .next (t.reject w)
  | .answer x a t => .next (answerTransfer c x a t)
  | .reset t      => .next t.resetBlock
  | .idle         => .next s

/-- The meaning of every instruction under a configuration (rule R14). -/
def execUnder (c : Cfg) (i : Instr) (s : State) : Host.Outcome State Fault Refusal :=
  match i with
  | .construct n  => .next (construct c n s)
  | .setc j r g b => setColour c j r g b s
  | .setp j p     => setPacked c j p s
  | .commit       => commit c s
  | .release      => execRelease s
  | .zero         => .next (s.driveSymbol c.zero)
  | .one          => .next (s.driveSymbol c.one)

/-- The step of the machine whose configuration is c (rules R14, R27). -/
def stepUnder (c : Cfg) (s : State) : Host.Outcome State Fault Refusal := runMove c (decodeUnder c) (execUnder c) s

end Sys2Proof.Machine
end

