-- ==== Sys2Proof/Machine/Dispatch.lean ====
section
/-! DEFINITION. One arm per row of spec/opcode_table.json. -/

namespace Sys2Proof.Machine

def exec (i : Instr) (s : State) : Host.Outcome State Fault Refusal :=
  match i with
  | .construct n => Sys2Proof.Machine.execConstruct n s
  | .setc j r g b => Sys2Proof.Machine.execSetc j r g b s
  | .setp j p => Sys2Proof.Machine.execSetp j p s
  | .commit => Sys2Proof.Machine.execCommit s
  | .release => Sys2Proof.Machine.execRelease s
  | .zero => Sys2Proof.Machine.execZero s
  | .one => Sys2Proof.Machine.execOne s

end Sys2Proof.Machine
end

