-- ==== Sys2Proof/Machine/Step.lean ====
section
/-! DEFINITION. One step of the machine (rules R10, R80, 41_strip_buffer_ops.md), and the placing of a code where the step
takes its next one. -/

namespace Sys2Proof.Machine

/-- One step of this hardware: `runMove` with its configuration, its decoder and its meanings (rules R10, R80). -/
def step (s : State) : Host.Outcome State Fault Refusal := runMove cfg decode exec s

/-- The state with a row of the opcode table placed so that the very next step runs it (log entry 1). -/
def State.withFetchWord (s : State) (nbits w : Nat) : State := s.withCode (tableCode nbits w)

end Sys2Proof.Machine
end

