-- ==== Sys2Proof/Safety.lean ====
section
/-! DEFINITION. What counts as a safe state and a safe step, in the terms claims use: the invariants of rule R24
(10_state.md) with the bounds of rules R19, R20 and R82, and what a run lets an observer see (rule R154). -/

namespace Sys2Proof.Machine

/-- Step s answers t. -/
abbrev StepsTo (s t : State) : Prop := step s = .next t

/-- LED i's slot is nine zero bytes, or the nine bytes of some colour (I-slot, rule R24). -/
def SlotOk (c : Cfg) (m : Memory) (i : Nat) : Prop :=
  Memory.readBytes m (slotBase c i) slotBytes = List.replicate slotBytes 0 ∨
    ∃ r g b, Memory.readBytes m (slotBase c i) slotBytes = slotData c r g b

/-- The invariants of a session: LED_COUNT was admitted (rule R82), IMG is in canonical form and has no byte beyond
BUF_LEN (I-len), its padding is 0 (I-pad), its LED slots are unset or coloured (I-slot), and while a transfer is in flight
its descriptor is (0, BUF_LEN) and HWR equals IMG (rules R17, R19, R87). -/
structure Session.Inv (c : Cfg) (x : Session) : Prop where
  ledCountOk : LedCountOk c x.ledCount
  canonical  : Memory.wf x.img = true
  inside     : ∀ e ∈ x.img, e.1 < x.bufLen c
  padding    : ∀ k, InLead c k ∨ InTrail c x.ledCount k → Memory.read x.img k = 0
  slots      : ∀ i, i < x.ledCount → SlotOk c x.img i
  inFlight   : ∀ d, x.xfer = some d → d = { cmdLen := 0, dataLen := x.bufLen c } ∧ x.hwr = .copied x.img

/-- What every event of OUT carries (rules R18, R19, R20): the device path, CLOCK_HZ, lengths that fit a platform word,
a transfer's empty command segment and a payload of exactly its data length. -/
def Event.Ok (c : Cfg) : Event → Prop
  | .openDevice path      => path = Config.devicePath
  | .setClock hz          => hz = c.clockHz
  | .mapBuffer len        => len < 2 ^ c.wordW
  | .transfer d payload   => d.cmdLen = 0 ∧ payload.length = d.dataLen ∧ d.dataLen < 2 ^ c.wordW
  | .unmap                => True
  | .close                => True

/-- The machine's invariant: the session's while there is one, and every event of OUT as it should be. -/
structure State.Inv (c : Cfg) (s : State) : Prop where
  session : ∀ x, s.phase = .usable x → x.Inv c
  events  : ∀ e ∈ s.out, e.Ok c

/-- The phase of a state without what it holds. -/
inductive PhaseName where
  | unbuilt
  | usable
  | released
  deriving DecidableEq, Repr

/-- The name of a phase (rule R13). -/
def Phase.name : Phase → PhaseName
  | .unbuilt  => .unbuilt
  | .usable _ => .usable
  | .released => .released

/-- What a run lets an observer see when it ends (rule R154): the RESULT codes, the phase, IMG where there is one, OUT. -/
structure Observation where
  results : List Result
  phase   : PhaseName
  img     : Option (List Byte)
  out     : List Event
  deriving DecidableEq, Repr

/-- The observation of a state (rule R154). It says nothing of the strip. -/
def observe (c : Cfg) (s : State) : Observation where
  results := s.results
  phase   := s.phase.name
  img     := match s.phase with
    | .usable x => some (Memory.readBytes x.img 0 (x.bufLen c))
    | .unbuilt  => none
    | .released => none
  out     := s.out

/-- The state with HWR replaced, where there is one. -/
def State.withHwr (s : State) (h : Hwr) : State :=
  match s.phase with
  | .usable x => s.setPhase (.usable { x with hwr := h })
  | .unbuilt  => s
  | .released => s

/-- The cells of the phase transition table of rule R92: from a phase, a command may go to a phase with a result; `none`
is a COMMIT that has not returned yet. A symbol is no command and leaves the phase alone. -/
def phaseTable : PhaseName → Instr → List (PhaseName × Option Result)
  | .unbuilt,  .construct _  => [(.usable, some .ok), (.released, some .deviceUnavailable),
                                 (.released, some .configurationError), (.unbuilt, some .invalidLedCount)]
  | .unbuilt,  .setc _ _ _ _ => [(.unbuilt, some .notUsable)]
  | .unbuilt,  .setp _ _     => [(.unbuilt, some .notUsable)]
  | .unbuilt,  .commit       => [(.unbuilt, some .notUsable)]
  | .unbuilt,  .release      => [(.unbuilt, some .notUsable)]
  | .usable,   .construct _  => [(.usable, some .notUsable)]
  | .usable,   .setc _ _ _ _ => [(.usable, some .ok), (.usable, some .invalidIndex)]
  | .usable,   .setp _ _     => [(.usable, some .ok), (.usable, some .invalidIndex)]
  | .usable,   .commit       => [(.usable, none)]
  | .usable,   .release      => [(.released, some .ok)]
  | .released, .construct _  => [(.released, some .notUsable)]
  | .released, .setc _ _ _ _ => [(.released, some .notUsable)]
  | .released, .setp _ _     => [(.released, some .notUsable)]
  | .released, .commit       => [(.released, some .notUsable)]
  | .released, .release      => [(.released, some .notUsable)]
  | p,         .zero         => [(p, none)]
  | p,         .one          => [(p, none)]

end Sys2Proof.Machine
end

