-- ==== Sys2Proof/Certificates/Slice0/Obligations.lean ====
section
/-! DEFINITION. The statements for the provers. `cfg` is this hardware's configuration (rule R5), at which `exec` and
`step` run; where a statement holds of every configuration it says so, and names the meanings and the step under a given
configuration, `execUnder` and `stepUnder` (rules R14, R27). A witness for every hypothesis stands in Tests/Slice0.lean. -/

open Sys2Proof Sys2Proof.Machine

/-! ### Encodings (30_encoding.md) -/

/-- Every instruction whose operands fit their fields is what its code decodes to (rules R50, R57 to R60). -/
def Obligations.DecodeOfEncodeIsInstr : Prop :=
  ∀ i : Instr, i.WellFormed → decode (encode i) = .ok i

/-- A code that decodes is the code of the instruction it decodes to, which is well formed: no two codes stand for one
instruction and no bit of a code is ignored (rules R57, R58, R61). -/
def Obligations.EncodeOfDecodeIsCode : Prop :=
  ∀ (w : Code) (i : Instr), decode w = .ok i → encode i = w ∧ i.WellFormed

/-- The opcode map of rule R58, row by row: a word is the command of a row iff its bits under the row's mask are the row's
match, its operands are the fields the row names, and a word of no row is no command. -/
def Obligations.WordIsCommandIffRowMatches : Prop :=
  ∀ w : CommandWord,
    (∀ n, decode (.command w) = .ok (.construct n) ↔
      w &&& 0xFF00000000FFFFFF#64 = 0x1000000000000000#64 ∧ n = (w.extractLsb' 24 32).toNat) ∧
    (∀ i r g b, decode (.command w) = .ok (.setc i r g b) ↔
      w &&& 0xFF00000000000000#64 = 0x2000000000000000#64 ∧ i = (w.extractLsb' 24 32).toNat ∧
        r = w.extractLsb' 16 8 ∧ g = w.extractLsb' 8 8 ∧ b = w.extractLsb' 0 8) ∧
    (∀ i p, decode (.command w) = .ok (.setp i p) ↔
      w &&& 0xFF00000000000000#64 = 0x3000000000000000#64 ∧ i = (w.extractLsb' 24 32).toNat ∧
        p = w.extractLsb' 0 24) ∧
    (decode (.command w) = .ok .commit ↔ w &&& 0xFFFFFFFFFFFFFFFF#64 = 0x4000000000000000#64) ∧
    (decode (.command w) = .ok .release ↔ w &&& 0xFFFFFFFFFFFFFFFF#64 = 0x5000000000000000#64) ∧
    decode (.command w) ≠ .ok .zero ∧ decode (.command w) ≠ .ok .one ∧
    (decode (.command w) = .error .illegalCommand ↔
      w &&& 0xFF00000000FFFFFF#64 ≠ 0x1000000000000000#64 ∧ w &&& 0xFF00000000000000#64 ≠ 0x2000000000000000#64 ∧
        w &&& 0xFF00000000000000#64 ≠ 0x3000000000000000#64 ∧ w &&& 0xFFFFFFFFFFFFFFFF#64 ≠ 0x4000000000000000#64 ∧
        w &&& 0xFFFFFFFFFFFFFFFF#64 ≠ 0x5000000000000000#64)

/-- The illegal words by their fields (rule R61): OP 0 or at least 6; Z not 0; a must-be-zero field not 0. -/
def Obligations.IllegalWordsByField : Prop :=
  ∀ w : CommandWord, decode (.command w) = .error .illegalCommand ↔
    (w.extractLsb' 60 4 = 0x0#4 ∨ 0x6#4 ≤ w.extractLsb' 60 4) ∨ w.extractLsb' 56 4 ≠ 0x0#4 ∨
    (w.extractLsb' 60 4 = 0x1#4 ∧ w.extractLsb' 0 24 ≠ 0x0#24) ∨
    ((w.extractLsb' 60 4 = 0x4#4 ∨ w.extractLsb' 60 4 = 0x5#4) ∧ w.extractLsb' 0 56 ≠ 0x0#56)

/-- Words written out in 95_test_vectors.md section 2, and the two symbols of rule R50. -/
def Obligations.WrittenWordsDecode : Prop :=
  decode (.command 0x1000000001000000) = .ok (.construct 1) ∧
  decode (.command 0x10FFFFFFFF000000) = .ok (.construct 0xFFFFFFFF) ∧
  decode (.command 0x2000000000280000) = .ok (.setc 0 40 0 0) ∧
  decode (.command 0x200000003BFF8001) = .ok (.setc 59 255 128 1) ∧
  decode (.command 0x3000000007123456) = .ok (.setp 7 0x123456) ∧
  decode (.command 0x4000000000000000) = .ok .commit ∧
  decode (.command 0x5000000000000000) = .ok .release ∧
  decode (.symbol 0b100) = .ok .zero ∧
  decode (.symbol 0b110) = .ok .one ∧
  decode (.command 0x0000000000000000) = .error .illegalCommand ∧
  decode (.command 0x2100000000010101) = .error .illegalCommand ∧
  decode (.command 0x4000000001000000) = .error .illegalCommand

/-- The result codes of rule R62. -/
def Obligations.ResultCodesAreNumbered : Prop :=
  Result.ok.code = 0x0 ∧ Result.deviceUnavailable.code = 0x1 ∧ Result.configurationError.code = 0x2 ∧
  Result.invalidIndex.code = 0x3 ∧ Result.transferError.code = 0x4 ∧ Result.notUsable.code = 0x5 ∧
  Result.illegalCommand.code = 0x6 ∧ Result.invalidLedCount.code = 0x7 ∧ ∀ r : Result, r.code < 0x8

/-! ### The Pulse Encoder (40_pulse_encoder.md) -/

/-- The decoding property (rule R73), for every configuration whose codes differ: each group is ONE or ZERO, the group at
position b is ONE iff bit b is set; so ENC is injective and DEC undoes it. -/
def Obligations.EncGroupsDecode : Prop :=
  ∀ c : Cfg, c.Valid →
    (∀ (v : Byte) (b : Nat), b < 8 →
      (group (enc c v) b = c.one ∨ group (enc c v) b = c.zero) ∧ (group (enc c v) b = c.one ↔ v.getLsbD b = true)) ∧
    (∀ v : Byte, dec c (enc c v) = v) ∧
    (∀ u v : Byte, enc c u = enc c v → u = v)

/-- ENC by concatenation, most significant source bit first (rule R71), for every configuration. -/
def Obligations.EncIsConcatenation : Prop :=
  ∀ (c : Cfg) (v : Byte),
    let code := fun b : Nat => if v.getLsbD b then c.one else c.zero
    enc c v = (code 7 ++ code 6 ++ code 5 ++ code 4 ++ code 3 ++ code 2 ++ code 1 ++ code 0).setWidth 24

/-- The closed forms of rule R74 that are about one value, and the corners of rule R76, with the reference codes. -/
def Obligations.EncClosedForms : Prop :=
  (∀ v : Byte, enc cfg v = 0x924924#24 ||| (spread v <<< 1)) ∧
  (∀ v : Byte, ∀ b < 8, (enc cfg v).getLsbD (3 * b + 2) = true ∧
    (enc cfg v).getLsbD (3 * b + 1) = v.getLsbD b ∧ (enc cfg v).getLsbD (3 * b) = false) ∧
  (∀ v : Byte, (List.range 24).countP (fun k => (enc cfg v).getLsbD k) =
    8 + (List.range 8).countP (fun k => v.getLsbD k)) ∧
  (∀ v : Byte, (0 : Byte) ∉ be3 (enc cfg v)) ∧
  enc cfg 0 = 0x924924#24 ∧ enc cfg 255 = 0xDB6DB6#24 ∧ enc cfg 128 = 0xD24924#24 ∧ enc cfg 1 = 0x924926#24

/-- ENC is strictly increasing and goes through OR and AND, with the reference codes (rule R74). -/
def Obligations.EncKeepsOrderAndBitwise : Prop :=
  ∀ a b : Byte, (a < b → enc cfg a < enc cfg b) ∧ enc cfg (a ||| b) = enc cfg a ||| enc cfg b ∧
    enc cfg (a &&& b) = enc cfg a &&& enc cfg b

/-- The nibble table of rule R75, with the reference codes. -/
def Obligations.EncByNibbles : Prop :=
  (List.range 16).map (fun n => encNibble cfg (BitVec.ofNat 4 n)) =
    [0x924, 0x926, 0x934, 0x936, 0x9A4, 0x9A6, 0x9B4, 0x9B6, 0xD24, 0xD26, 0xD34, 0xD36, 0xDA4, 0xDA6, 0xDB4, 0xDB6] ∧
  ∀ v : Byte, enc cfg v =
    ((encNibble cfg (v.extractLsb' 4 4)).setWidth 24 <<< 12) ||| (encNibble cfg (v.extractLsb' 0 4)).setWidth 24

/-- A set slot differs from a padding slot in every byte (rule R74), and the slots of black and white (rule R85 a, b). -/
def Obligations.SetSlotHasNoZeroByte : Prop :=
  (∀ r g b : Byte, (0 : Byte) ∉ slotData cfg r g b) ∧
  slotData cfg 0 0 0 = [0x92, 0x49, 0x24, 0x92, 0x49, 0x24, 0x92, 0x49, 0x24] ∧
  slotData cfg 255 255 255 = [0xDB, 0x6D, 0xB6, 0xDB, 0x6D, 0xB6, 0xDB, 0x6D, 0xB6]

/-! ### The step (R80, R89, R127, R140) -/

/-- The step runs what it takes from its port: a command word at the head of HOST's list when no transfer is in flight and
no symbol waits, and a symbol at the shifter (the model's own port, log entry 11). -/
def Obligations.StepRunsDecodedCode : Prop :=
  (∀ (s : State) (w : CommandWord) (rest : List HostEvent) (i : Instr),
    s.symbols = [] → s.inFlight = none → s.host = .command w :: rest → decode (.command w) = .ok i →
      step s = exec i { s with host := rest }) ∧
  (∀ (s : State) (k : PulseCode) (rest : List PulseCode) (i : Instr),
    s.symbols = k :: rest → decode (.symbol k) = .ok i → step s = exec i { s with symbols := rest })

/-- A word of no row raises IllegalCommand in every phase and changes nothing else (rule R127). -/
def Obligations.IllegalWordOnlyReports : Prop :=
  ∀ (s : State) (w : CommandWord) (rest : List HostEvent),
    s.symbols = [] → s.inFlight = none → s.host = .command w :: rest →
    w &&& 0xFF00000000FFFFFF#64 ≠ 0x1000000000000000#64 → w &&& 0xFF00000000000000#64 ≠ 0x2000000000000000#64 →
    w &&& 0xFF00000000000000#64 ≠ 0x3000000000000000#64 → w &&& 0xFFFFFFFFFFFFFFFF#64 ≠ 0x4000000000000000#64 →
    w &&& 0xFFFFFFFFFFFFFFFF#64 ≠ 0x5000000000000000#64 →
      step s = .next { s with host := rest, results := s.results ++ [.illegalCommand] }

/-- While a transfer is in flight and the DEVICE has not answered, the block has no step of its own (rule R89). That the
step answers the same state is the model's choice (log entry 3), and so are the shifter's port (log entry 11) and that the
data line stays as it is (log entry 25). -/
def Obligations.UnansweredTransferWaits : Prop :=
  ∀ (s : State) (x : Session) (d : Xfer), s.symbols = [] → s.phase = .usable x → x.xfer = some d → s.answers = [] →
    step s = .next s

/-- With nothing from HOST, no symbol and no transfer in flight the state stays (the model's choice, log entry 3). -/
def Obligations.IdleHostLeavesState : Prop :=
  ∀ s : State, s.symbols = [] → s.inFlight = none → s.host = [] → step s = .next s

/-- The reset event (rule R140): PHASE to UNBUILT with the arrays and LED_COUNT gone, OUT empty, the line at LINE_IDLE
(rule R141). CLK is `any` and so not mentioned. That the records and inputs stay is the model's choice (log entry 12). -/
def Obligations.ResetEventClearsBlock : Prop :=
  ∀ (s : State) (rest : List HostEvent), s.symbols = [] → s.inFlight = none → s.host = .reset :: rest →
    ∃ t, step s = .next t ∧ t.phase = .unbuilt ∧ t.out = [] ∧ t.lineLevel = Config.lineIdle ∧ t.host = rest ∧
      t.results = s.results ∧ t.wire = s.wire ∧ t.answers = s.answers ∧ t.symbols = []

/-- The state after reset (rule R25): UNBUILT, so without LED_COUNT, IMG and HWR; OUT empty; the line at LINE_IDLE. -/
def Obligations.ResetStateIsUnbuilt : Prop :=
  State.reset.phase = .unbuilt ∧ State.reset.out = [] ∧ State.reset.lineLevel = Config.lineIdle

/-! ### CONSTRUCT (R81 to R83, R128) -/

/-- CONSTRUCT n in UNBUILT with an admitted n and a DEVICE that answers ok three times (rule R81): USABLE with LED_COUNT n,
a zero IMG and an HWR whose bytes are free (log entry 7), CLK at CLOCK_HZ, Open, SetClock and Map in OUT, RESULT OK. The
whole next state is given, so everything else is as before. -/
def Obligations.ConstructOpensSession : Prop :=
  ∀ (s : State) (n : Nat) (rest : List Answer),
    s.phase = .unbuilt → 1 ≤ n → 9 * (n + 4) < 2 ^ cfg.wordW → s.answers = .ok :: .ok :: .ok :: rest →
    ∃ x : Session, x.ledCount = n ∧ x.xfer = none ∧ x.bufLen cfg = 9 * (n + 4) ∧
      (∀ k, k < 9 * (n + 4) → x.imgByte cfg k = some 0) ∧ (∀ k, 9 * (n + 4) ≤ k → x.imgByte cfg k = none) ∧
      exec (.construct n) s = .next { s with
        phase := .usable x
        clk := 3000000
        out := s.out ++ [.openDevice Config.devicePath, .setClock 3000000, .mapBuffer (9 * (n + 4))]
        results := s.results ++ [.ok]
        answers := rest
        draws := s.draws + 1 }

/-- A CONSTRUCT the DEVICE refuses (rules R83, R121, R122, R129): at the open or the mapping DeviceUnavailable, at the
clock ConfigurationError; RELEASED; no Transfer event among the events added. Which other events there are is not stated
(decisions D9, D23). -/
def Obligations.RefusedConstructIsFatal : Prop :=
  ∀ (s : State) (n : Nat) (rest : List Answer) (r : Result),
    s.phase = .unbuilt → 1 ≤ n → 9 * (n + 4) < 2 ^ cfg.wordW →
    (s.answers = .fail :: rest ∧ r = .deviceUnavailable ∨
      s.answers = .ok :: .fail :: rest ∧ r = .configurationError ∨
      s.answers = .ok :: .ok :: .fail :: rest ∧ r = .deviceUnavailable) →
    ∃ t es, exec (.construct n) s = .next t ∧ t.phase = .released ∧ t.results = s.results ++ [r] ∧
      t.out = s.out ++ es ∧ (∀ d p, Event.transfer d p ∉ es) ∧ t.answers = rest ∧ t.wire = s.wire ∧
      t.lineLevel = s.lineLevel ∧ t.host = s.host ∧ t.symbols = s.symbols

/-- InvalidLedCount (rule R128): in UNBUILT, n = 0 or a BUF_LEN that does not fit the platform word; nothing else
changes. -/
def Obligations.BadLedCountOnlyReports : Prop :=
  ∀ (s : State) (n : Nat), s.phase = .unbuilt → (n = 0 ∨ 2 ^ cfg.wordW ≤ 9 * (n + 1 + 3)) →
    exec (.construct n) s = .next { s with results := s.results ++ [.invalidLedCount] }

/-- `LedCountOk` (rule R82): its definition for every configuration, the largest n with a 32-bit word, and every 32-bit n
with a 64-bit word. -/
def Obligations.LedCountBounds : Prop :=
  (∀ (c : Cfg) (n : Nat), LedCountOk c n ↔ 1 ≤ n ∧ 9 * (n + c.leadOffset + c.trailZeroCount) < 2 ^ c.wordW) ∧
  (∀ n : Nat, LedCountOk (reference 32) n ↔ 1 ≤ n ∧ n ≤ 477218584) ∧
  (∀ n : Nat, n < 2 ^ 32 → (LedCountOk (reference 64) n ↔ 1 ≤ n))

/-- Whatever the DEVICE answers, CONSTRUCT leaves the data line, HOST's list and the shifter alone (rule R81, its frame);
and when it returns OK the DEVICE's clock is CLOCK_HZ (rule R18). -/
def Obligations.ConstructFrame : Prop :=
  ∀ (n : Nat) (s : State), ∃ t, exec (.construct n) s = .next t ∧ t.wire = s.wire ∧ t.lineLevel = s.lineLevel ∧
    t.host = s.host ∧ t.symbols = s.symbols ∧ (∃ r, t.results = s.results ++ [r] ∧ (r = .ok → t.clk = 3000000) ∧
      (r.fatal = true ↔ s.phase = .unbuilt ∧ t.phase = .released))

/-! ### SETC and SETP (R84 to R86, R123) -/

/-- SETC (rule R84), all of it: its operands are fields of its word; outside USABLE NotUsable; an index from LED_COUNT on
InvalidIndex; else exactly the nine bytes from 9 * (LEAD_OFFSET + i) on are be3(ENC(g)), be3(ENC(r)), be3(ENC(b)), every
other byte of IMG reads as before, and nothing but IMG and the result differs. -/
def Obligations.SetcWritesItsSlot : Prop :=
  (∀ w : CommandWord, w &&& 0xFF00000000000000#64 = 0x2000000000000000#64 → decode (.command w) =
    .ok (.setc (w.extractLsb' 24 32).toNat (w.extractLsb' 16 8) (w.extractLsb' 8 8) (w.extractLsb' 0 8))) ∧
  ∀ (s : State) (i : Nat) (r g b : Byte),
    ((∀ x, s.phase ≠ .usable x) → exec (.setc i r g b) s = .next { s with results := s.results ++ [.notUsable] }) ∧
    (∀ x, s.phase = .usable x → x.ledCount ≤ i →
      exec (.setc i r g b) s = .next { s with results := s.results ++ [.invalidIndex] }) ∧
    (∀ x, s.phase = .usable x → i < x.ledCount → ∃ m : Memory,
      exec (.setc i r g b) s = .next { s with
        phase := .usable { x with img := m }, results := s.results ++ [.ok] } ∧
      ∀ k, ({ x with img := m } : Session).imgByte cfg k =
        if 9 * (1 + i) ≤ k ∧ k < 9 * (1 + i) + 9 then
          (be3 (enc cfg g) ++ be3 (enc cfg r) ++ be3 (enc cfg b))[k - 9 * (1 + i)]?
        else x.imgByte cfg k)

/-- SETP (rule R86) is SETC of the colour CFG.UNPACK gives: same checks, same store, same result; and where it stores, the
nine bytes and the frame are stated, red, green and blue being UNPACK's (the layout itself is decision D7). -/
def Obligations.SetpWritesItsSlot : Prop :=
  ∀ (s : State) (i : Nat) (p : BitVec 24),
    exec (.setp i p) s = exec (.setc i (cfg.unpack p).red (cfg.unpack p).green (cfg.unpack p).blue) s ∧
    (∀ x, s.phase = .usable x → i < x.ledCount → ∃ m : Memory,
      exec (.setp i p) s = .next { s with
        phase := .usable { x with img := m }, results := s.results ++ [.ok] } ∧
      ∀ k, ({ x with img := m } : Session).imgByte cfg k =
        if 9 * (1 + i) ≤ k ∧ k < 9 * (1 + i) + 9 then
          (be3 (enc cfg (cfg.unpack p).green) ++ be3 (enc cfg (cfg.unpack p).red) ++
            be3 (enc cfg (cfg.unpack p).blue))[k - 9 * (1 + i)]?
        else x.imgByte cfg k)

/-- UNPACK of this hardware (rules R5, R60): red = p[23:16], green = p[15:8], blue = p[7:0]; so a packed colour put
together from three channels gives them back (rule R64). -/
def Obligations.UnpackOfPackIsColour : Prop :=
  (∀ p : BitVec 24, cfg.unpack p = ⟨p.extractLsb' 16 8, p.extractLsb' 8 8, p.extractLsb' 0 8⟩) ∧
  (∀ r g b : Byte, cfg.unpack (packRgb r g b) = ⟨r, g, b⟩)

/-- InvalidIndex (rule R123), for both setters: IMG untouched, PHASE still USABLE, nothing but the result differs. -/
def Obligations.BadIndexOnlyReports : Prop :=
  ∀ (s : State) (x : Session) (i : Nat) (r g b : Byte) (p : BitVec 24), s.phase = .usable x → x.ledCount ≤ i →
    exec (.setc i r g b) s = .next { s with results := s.results ++ [.invalidIndex] } ∧
    exec (.setp i p) s = .next { s with results := s.results ++ [.invalidIndex] }

/-- Two SETCs to different LEDs may come in either order (rule R85 d), and of two to the same LED the second alone counts
(rule R85 c), where IMG is in its canonical form (an invariant of the machine). -/
def Obligations.SetcsCommuteAndOverwrite : Prop :=
  ∀ (s : State) (x : Session) (i j : Nat) (r g b r' g' b' : Byte),
    s.phase = .usable x → Memory.wf x.img = true → i < x.ledCount → j < x.ledCount →
    ∃ t u v w, exec (.setc i r g b) s = .next t ∧ exec (.setc j r' g' b') t = .next u ∧
      exec (.setc j r' g' b') s = .next v ∧ exec (.setc i r g b) v = .next w ∧
      (i ≠ j → u = w) ∧ (i = j → u.phase = v.phase)

/-- After CONSTRUCT n (OK) and one SETC (OK), from UNBUILT (rule R95): the slot holds the three encoded channels in the
order green, red, blue, and every other byte of IMG is 0. -/
def Obligations.FreshBufferHoldsOneSlot : Prop :=
  ∀ (s : State) (n i : Nat) (r g b : Byte) (rest : List Answer),
    s.phase = .unbuilt → 1 ≤ n → 9 * (n + 4) < 2 ^ cfg.wordW → s.answers = .ok :: .ok :: .ok :: rest → i < n →
    ∃ t u x, exec (.construct n) s = .next t ∧ exec (.setc i r g b) t = .next u ∧ u.phase = .usable x ∧
      u.results = s.results ++ [.ok, .ok] ∧
      Memory.readBytes x.img ((1 + i) * 9) 9 = be3 (enc cfg g) ++ be3 (enc cfg r) ++ be3 (enc cfg b) ∧
      ∀ k, k < 9 * (n + 4) → ¬ ((1 + i) * 9 ≤ k ∧ k < (1 + i) * 9 + 9) → x.imgByte cfg k = some 0

/-! ### COMMIT (R87 to R90, R124, R47) -/

/-- COMMIT's first step in USABLE (rules R87, R19, R47): HWR holds IMG byte for byte, one Transfer event with command length
0, data length BUF_LEN and IMG's bytes as payload is in OUT, the transfer is in flight, and nothing else differs; no result
yet. -/
def Obligations.CommitPublishesImage : Prop :=
  ∀ (s : State) (x : Session), s.phase = .usable x → ∃ (y : Session) (payload : List Byte),
    exec .commit s = .next { s with
      phase := .usable y
      out := s.out ++ [.transfer { cmdLen := 0, dataLen := x.bufLen cfg } payload] } ∧
    y.ledCount = x.ledCount ∧ y.img = x.img ∧ y.xfer = some { cmdLen := 0, dataLen := x.bufLen cfg } ∧
    (∀ k, y.hwrByte cfg k = x.imgByte cfg k) ∧
    payload.length = 9 * (x.ledCount + 4) ∧ ∀ k, payload[k]? = x.imgByte cfg k

/-- The DEVICE's answer ends COMMIT (rules R87, R88): OK or TransferError, USABLE with IMG and LED_COUNT as they were, no
transfer in flight, OUT as it was; HWR's bytes are free. CLK and HOST's list are as before. -/
def Obligations.AnswerEndsCommit : Prop :=
  ∀ (s : State) (x : Session) (d : Xfer) (a : Answer) (rest : List Answer),
    s.symbols = [] → s.phase = .usable x → x.xfer = some d → s.answers = a :: rest →
    ∃ t y, step s = .next t ∧ t.phase = .usable y ∧ y.img = x.img ∧ y.ledCount = x.ledCount ∧ y.xfer = none ∧
      t.results = s.results ++ [match a with | .ok => .ok | .fail => .transferError] ∧ t.out = s.out ∧
      t.answers = rest ∧ t.clk = s.clk ∧ t.host = s.host ∧ t.symbols = []

/-- A COMMIT that fails, from its first step on (rules R88, R124): RESULT TransferError, IMG as before the COMMIT, USABLE,
the Transfer event in OUT, and some prefix of the frame's bits on the data line (under WIRE_MSB_FIRST). -/
def Obligations.FailedCommitKeepsImage : Prop :=
  ∀ (s : State) (x : Session) (rest : List Answer),
    cfg.wireMsbFirst = true → s.symbols = [] → s.phase = .usable x → s.answers = .fail :: rest →
    ∃ t u y e bits, exec .commit s = .next t ∧ step t = .next u ∧ u.results = s.results ++ [.transferError] ∧
      u.phase = .usable y ∧ y.img = x.img ∧ y.ledCount = x.ledCount ∧ u.out = s.out ++ [e] ∧
      e = .transfer { cmdLen := 0, dataLen := x.bufLen cfg } (Memory.readBytes x.img 0 (x.bufLen cfg)) ∧
      u.wire = s.wire ++ [bits] ∧ bits <+: frameBits (Memory.readBytes x.img 0 (x.bufLen cfg))

/-- Two COMMITs with no command between them send equal Transfer events, whatever the DEVICE answers the first
(rules R38, R90). -/
def Obligations.CommitTwiceSendsTheSame : Prop :=
  ∀ (s : State) (x : Session) (a : Answer) (rest : List Answer),
    s.symbols = [] → s.phase = .usable x → s.answers = a :: rest →
    ∃ t u v d p, exec .commit s = .next t ∧ step t = .next u ∧ exec .commit u = .next v ∧
      v.out = s.out ++ [.transfer d p, .transfer d p]

/-- The end-to-end scenario (rule R96): one LED, red 40, COMMIT. The slot is ENC(0), ENC(40), ENC(0); one transfer request of
45 bytes, the first 9 and the last 27 of them zero. That one LED is admitted whatever WORD_W is rests on log entry 5. -/
def Obligations.EndToEndScenario : Prop :=
  ∀ (s : State) (rest : List Answer), s.phase = .unbuilt → s.answers = .ok :: .ok :: .ok :: rest →
    ∃ t u v x payload, exec (.construct 1) s = .next t ∧ exec (.setc 0 40 0 0) t = .next u ∧ exec .commit u = .next v ∧
      u.phase = .usable x ∧
      Memory.readBytes x.img 9 9 = be3 (enc cfg 0) ++ be3 (enc cfg 40) ++ be3 (enc cfg 0) ∧
      v.out = s.out ++ [.openDevice Config.devicePath, .setClock 3000000, .mapBuffer 45,
        .transfer { cmdLen := 0, dataLen := 45 } payload] ∧
      payload.length = 45 ∧ payload.take 9 = List.replicate 9 0 ∧ payload.drop 18 = List.replicate 27 0 ∧
      (payload.drop 9).take 9 = [0x92, 0x49, 0x24, 0x93, 0x4D, 0x24, 0x92, 0x49, 0x24]

/-- A transfer the DEVICE answers ok has put exactly one frame on the data line (rules R100, R101): frame bit n is bit
7 - n mod 8 of payload byte n div 8, the payload being IMG's bytes as COMMIT copied them. WIRE_MSB_FIRST is the spec's
assumption about the DEVICE (decision D11). -/
def Obligations.OkTransferShiftsTheFrame : Prop :=
  ∀ (s : State) (x : Session) (d : Xfer) (rest : List Answer),
    cfg.wireMsbFirst = true → s.symbols = [] → s.phase = .usable x → x.xfer = some d → x.hwr = .copied x.img →
    s.answers = .ok :: rest →
    ∃ t bits, step s = .next t ∧ t.wire = s.wire ++ [bits] ∧ bits.length = 8 * (9 * (x.ledCount + 4)) ∧
      ∀ n, n < 8 * (9 * (x.ledCount + 4)) → bits[n]? = some ((Memory.read x.img (n / 8)).getLsbD (7 - n % 8))

/-- The 72 bits of a set slot on the line (rules R32, R71, R103, R104), for every configuration with WIRE_MSB_FIRST, the
spec's assumption about the DEVICE (rule R101, decision D11; log entry 21): eight symbols of green, then of red, then of
blue, each channel most significant bit first, a set bit as ONE's levels and a clear one as ZERO's. -/
def Obligations.SlotWaveformIsGrbSymbols : Prop :=
  ∀ (c : Cfg) (d : Nat) (r g b : Byte), c.wireMsbFirst = true → shiftedBits c d (slotData c r g b) =
    ([g, r, b].flatMap fun v => (List.range 8).map fun j => v.getLsbD (7 - j)).flatMap
      fun p => symbolLevels (if p then c.one else c.zero)

/-- In every state that meets the invariant, the frame of IMG read three bits at a time holds only the symbols 000, ZERO and
ONE, and only 000 in the padding (rules R66, R102). The bits' order is rule R101's, under WIRE_MSB_FIRST (log entry 21). -/
def Obligations.FrameHoldsOnlyThreeSymbols : Prop :=
  ∀ (s : State) (x : Session), s.Inv cfg → s.phase = .usable x →
    let bits := frameBits (Memory.readBytes x.img 0 (x.bufLen cfg))
    bits.length = 72 * (x.ledCount + 4) ∧
    (∀ m, frameSymbol bits m = 0b000#3 ∨ frameSymbol bits m = 0b100#3 ∨ frameSymbol bits m = 0b110#3) ∧
    (∀ m, m < 24 ∨ 24 * (1 + x.ledCount) ≤ m → frameSymbol bits m = 0b000#3)

/-! ### RELEASE (R91), the symbols (R50) -/

/-- RELEASE (rule R91): in USABLE to RELEASED with RESULT OK, and Unmap and Close in OUT (no claim rests on their order,
90_conflicts.md C12); nothing else differs, so nothing is sent; elsewhere NotUsable. -/
def Obligations.ReleaseEndsSession : Prop :=
  ∀ s : State,
    (∀ x, s.phase = .usable x → ∃ es, es.Perm [Event.unmap, Event.close] ∧ exec .release s = .next { s with
      phase := .released, out := s.out ++ es, results := s.results ++ [.ok] }) ∧
    ((∀ x, s.phase ≠ .usable x) → exec .release s = .next { s with results := s.results ++ [.notUsable] })

/-- The symbols on the data line (rules R50, R104): ZERO high, low, low; ONE high, high, low; and nothing else differs. That
the table's rows ZERO and ONE run so is the model's choice (log entry 11). -/
def Obligations.PulseSymbolsDriveTheLine : Prop :=
  ∀ s : State,
    exec .zero s = .next { s with wire := s.wire ++ [[true, false, false]], lineLevel := false } ∧
    exec .one s = .next { s with wire := s.wire ++ [[true, true, false]], lineLevel := false }

/-! ### Whole-machine rules -/

/-- NotUsable (rule R126), for every command: CONSTRUCT outside UNBUILT; SETC, SETP, COMMIT or RELEASE outside USABLE; no
state changes and no event is emitted. -/
def Obligations.WrongPhaseOnlyReports : Prop :=
  ∀ (s : State) (i : Instr),
    (s.phase ≠ .unbuilt ∧ (∃ n, i = .construct n) ∨
      (∀ x, s.phase ≠ .usable x) ∧ ((∃ j r g b, i = .setc j r g b) ∨ (∃ j p, i = .setp j p) ∨ i = .commit ∨ i = .release)) →
    exec i s = .next { s with results := s.results ++ [.notUsable] }

/-- The phase transition table of rule R92: every instruction in every phase goes to a phase of its cell with the cell's
result; the DEVICE's answer leaves USABLE with OK or TransferError; an illegal word leaves the phase with IllegalCommand. -/
def Obligations.PhasesFollowTheTable : Prop :=
  (∀ (i : Instr) (s : State), ∃ t r, exec i s = .next t ∧ (t.phase.name, r) ∈ phaseTable s.phase.name i ∧
    t.results = s.results ++ r.toList) ∧
  (∀ (c : Cfg) (x : Session) (a : Answer) (s : State), ∃ r, (r = .ok ∨ r = .transferError) ∧
    (answerTransfer c x a s).phase.name = .usable ∧ (answerTransfer c x a s).results = s.results ++ [r]) ∧
  (∀ (w : CommandWord) (s : State), (s.reject (.command w)).phase = s.phase ∧
    (s.reject (.command w)).results = s.results ++ [.illegalCommand])

/-- Every step from every state answers a next state, on this hardware and under every configuration: no command forms an
address outside IMG (rules R30, R93 b), and no fault of the block stops it (rule R125). -/
def Obligations.EveryStepAnswersNext : Prop :=
  (∀ s : State, ∃ t, step s = .next t) ∧ ∀ (c : Cfg) (s : State), ∃ t, stepUnder c s = .next t

/-- The invariant holds after reset (rules R24, R25). -/
def Obligations.ResetMeetsInvariant : Prop :=
  State.reset.Inv cfg

/-- Every step keeps the invariant (rule R24: I-len, I-pad, I-slot; rules R17, R19, R20, R82): from every state that meets
it, not only from those a run reaches; on this hardware and under every configuration (rule R14). -/
def Obligations.StepKeepsInvariant : Prop :=
  (∀ s t : State, s.Inv cfg → step s = .next t → t.Inv cfg) ∧
  ∀ (c : Cfg) (s t : State), s.Inv c → stepUnder c s = .next t → t.Inv c

/-- CONSTRUCT under every configuration (rules R81, R14): it asks for the configuration's clock and maps its BUF_LEN, and in
the session that opens IMG is that many zero bytes. -/
def Obligations.ConstructUnderEveryConfiguration : Prop :=
  ∀ (c : Cfg) (s : State) (n : Nat) (rest : List Answer),
    s.phase = .unbuilt → LedCountOk c n → s.answers = .ok :: .ok :: .ok :: rest →
    ∃ (t : State) (x : Session), execUnder c (.construct n) s = .next t ∧ t.phase = .usable x ∧ x.ledCount = n ∧
      t.clk = c.clockHz ∧ t.results = s.results ++ [.ok] ∧
      t.out = s.out ++ [.openDevice Config.devicePath, .setClock c.clockHz,
        .mapBuffer (9 * (n + c.leadOffset + c.trailZeroCount))] ∧
      ∀ k, x.imgByte c k = if k < 9 * (n + c.leadOffset + c.trailZeroCount) then some 0 else none

/-- SETC and SETP under every configuration (rules R84, R86, R14): the slot starts at 9 * (LEAD_OFFSET + i), its bytes are
encoded with the configuration's ONE and ZERO, SETP's colour is split by its UNPACK, and nothing else differs. -/
def Obligations.SettersUnderEveryConfiguration : Prop :=
  ∀ (c : Cfg) (s : State) (x : Session) (i : Nat), s.phase = .usable x → i < x.ledCount →
    (∀ r g b : Byte, ∃ m : Memory,
      execUnder c (.setc i r g b) s = .next { s with
        phase := .usable { x with img := m }, results := s.results ++ [.ok] } ∧
      ∀ k, ({ x with img := m } : Session).imgByte c k =
        if 9 * (c.leadOffset + i) ≤ k ∧ k < 9 * (c.leadOffset + i) + 9 then
          (be3 (enc c g) ++ be3 (enc c r) ++ be3 (enc c b))[k - 9 * (c.leadOffset + i)]?
        else x.imgByte c k) ∧
    ∀ p : BitVec 24, execUnder c (.setp i p) s =
      execUnder c (.setc i (c.unpack p).red (c.unpack p).green (c.unpack p).blue) s

/-- COMMIT under every configuration (rules R87, R88, R14): its Transfer event carries the configuration's BUF_LEN and all of
IMG, and when the DEVICE answers ok the step adds to the line what it shifts for those bytes. -/
def Obligations.CommitUnderEveryConfiguration : Prop :=
  ∀ (c : Cfg) (s : State) (x : Session) (rest : List Answer),
    s.symbols = [] → s.phase = .usable x → s.answers = .ok :: rest →
    ∃ (t u : State) (y : Session) (payload : List Byte) (d : Nat),
      execUnder c .commit s = .next t ∧ stepUnder c t = .next u ∧
      payload.length = 9 * (x.ledCount + c.leadOffset + c.trailZeroCount) ∧ (∀ k, payload[k]? = x.imgByte c k) ∧
      u.out = s.out ++ [.transfer { cmdLen := 0, dataLen := payload.length } payload] ∧
      u.wire = s.wire ++ [shiftedBits c d payload] ∧ u.results = s.results ++ [.ok] ∧
      u.phase = .usable y ∧ y.img = x.img ∧ y.ledCount = x.ledCount

/-- Only the reset event leaves RELEASED (rules R13, R132): any other step from it emits nothing and stays there. -/
def Obligations.OnlyResetLeavesReleased : Prop :=
  ∀ s t : State, s.phase = .released → (∀ rest, s.host ≠ .reset :: rest) → step s = .next t →
    t.phase = .released ∧ t.out = s.out

/-- HWR is never an input of an instruction (rule R46): from two states that differ only in HWR, every instruction answers
two states that differ at most in HWR. -/
def Obligations.HwrIsNeverAnInput : Prop :=
  ∀ (i : Instr) (s : State) (h : Hwr), ∃ t h', exec i s = .next t ∧ exec i (s.withHwr h) = .next (t.withHwr h')

/-- OUT only grows, and only COMMIT issues a Transfer (rules R20, R38, R42). -/
def Obligations.OnlyCommitTransfers : Prop :=
  ∀ (i : Instr) (s : State), ∃ t es, exec i s = .next t ∧ t.out = s.out ++ es ∧
    (i ≠ .commit → ∀ d p, Event.transfer d p ∉ es)

/-- LED_COUNT never changes in a session, and IMG only through SETC and SETP (rules R15, R16, R40): a step from USABLE to
USABLE keeps LED_COUNT, and keeps IMG unless the command it ran is one of the two. -/
def Obligations.OnlySettersWriteImage : Prop :=
  ∀ (s t : State) (x y : Session), s.phase = .usable x → step s = .next t → t.phase = .usable y →
    y.ledCount = x.ledCount ∧
    (y.img = x.img ∨ ∃ w rest i, s.host = .command w :: rest ∧ decode (.command w) = .ok i ∧
      ((∃ j r g b, i = .setc j r g b) ∨ ∃ j p, i = .setp j p))

/-- CLK is written by CONSTRUCT alone (rule R18; reset makes it `any`): every other instruction leaves it. -/
def Obligations.OnlyConstructSetsClock : Prop :=
  ∀ (i : Instr) (s : State), (∀ n, i ≠ .construct n) → ∃ t, exec i s = .next t ∧ t.clk = s.clk

/-- No step puts a symbol at the shifter's port (the model's own, log entry 11), so a run from reset never runs one. -/
def Obligations.ShifterPortOnlyDrains : Prop :=
  ∀ s t : State, step s = .next t → t.symbols = s.symbols.tail
end

