-- ==== Sys2Proof/Laws/Memory.lean ====
section
/-! SUPPORT. The laws of memory: a read after a write, what a write leaves alone, that every operation keeps the canonical
form, and that equal bytes are equal memories in that form. -/

namespace Sys2Proof.Machine

/-! ### Reads -/

@[simp] theorem Memory.read_nil (k : Nat) : Memory.read [] k = 0 := rfl

theorem Memory.read_cons (e : Host.Cell) (m : Memory) (k : Nat) :
    Memory.read (e :: m) k = if e.1 = k then e.2 else Memory.read m k := rfl

theorem Memory.read_eq_zero {m : Memory} {k : Nat} (h : ∀ e ∈ m, e.1 ≠ k) : Memory.read m k = 0 := by
  induction m with
  | nil => rfl
  | cons e m ih =>
    rw [Memory.read_cons, if_neg (h e (by simp)), ih (fun a ha => h a (by simp [ha]))]

theorem Memory.read_mem {m : Memory} {k : Nat} (h : Memory.read m k ≠ 0) : ∃ e ∈ m, e.1 = k := by
  by_contra hn
  exact h (Memory.read_eq_zero fun e he hk => hn ⟨e, he, hk⟩)

theorem Memory.read_erase (m : Memory) (k j : Nat) :
    Memory.read (Memory.erase m k) j = if j = k then 0 else Memory.read m j := by
  induction m with
  | nil => simp [Memory.erase]
  | cons e m ih =>
    unfold Memory.erase at ih ⊢
    by_cases he : e.1 = k
    · rw [List.filter_cons_of_neg (by simp [he]), ih, Memory.read_cons]
      by_cases hj : j = k
      · rw [if_pos hj, if_pos hj]
      · rw [if_neg hj, if_neg hj, if_neg (by omega)]
    · rw [List.filter_cons_of_pos (by simp [he]), Memory.read_cons, Memory.read_cons, ih]
      by_cases hj : j = k
      · rw [if_neg (by omega), if_pos hj, if_pos hj]
      · rw [if_neg hj, if_neg hj]

theorem Memory.read_insert (m : Memory) (k : Nat) (v : Byte) (j : Nat) (h : ∀ e ∈ m, e.1 ≠ k) :
    Memory.read (Memory.insert m k v) j = if j = k then v else Memory.read m j := by
  induction m with
  | nil => simp [Memory.insert, Memory.read, eq_comm]
  | cons e m ih =>
    have ih := ih (fun a ha => h a (by simp [ha]))
    have he := h e (by simp)
    unfold Memory.insert
    split
    · simp only [Memory.read_cons, eq_comm]
    · rw [Memory.read_cons, Memory.read_cons, ih]
      by_cases hj : j = k
      · rw [if_neg (by omega), if_pos hj, if_pos hj]
      · rw [if_neg hj, if_neg hj]

theorem Memory.erase_ne {m : Memory} {k : Nat} : ∀ e ∈ Memory.erase m k, e.1 ≠ k := by
  simp [Memory.erase]

/-- What a write does to every byte. -/
theorem Memory.read_write (m : Memory) (k : Nat) (v : Byte) (j : Nat) :
    Memory.read (Memory.write m k v) j = if j = k then v else Memory.read m j := by
  unfold Memory.write
  split
  · rename_i hv
    rw [Memory.read_erase, hv]
  · rw [Memory.read_insert _ _ _ _ Memory.erase_ne, Memory.read_erase]
    split <;> rfl

@[simp] theorem Memory.read_write_same (m : Memory) (k : Nat) (v : Byte) : Memory.read (Memory.write m k v) k = v := by
  rw [Memory.read_write, if_pos rfl]

theorem Memory.read_write_other (m : Memory) {k j : Nat} (v : Byte) (h : j ≠ k) :
    Memory.read (Memory.write m k v) j = Memory.read m j := by
  rw [Memory.read_write, if_neg h]

/-- What `MemWrite` does to every byte. -/
theorem Memory.read_writeBytes (vs : List Byte) (m : Memory) (base j : Nat) :
    Memory.read (Memory.writeBytes m base vs) j
      = if base ≤ j ∧ j < base + vs.length then vs.getD (j - base) 0 else Memory.read m j := by
  induction vs generalizing m base with
  | nil => simp [Memory.writeBytes]
  | cons v vs ih =>
    rw [Memory.writeBytes, ih, Memory.read_write]
    by_cases h : j = base
    · subst h
      rw [if_neg (by omega), if_pos rfl, if_pos (by simp)]
      simp
    · rw [if_neg h]
      by_cases h' : base + 1 ≤ j ∧ j < base + 1 + vs.length
      · rw [if_pos h', if_pos (by simp; omega)]
        obtain ⟨d, rfl⟩ := Nat.exists_eq_add_of_le h'.1
        rw [show base + 1 + d - base = d + 1 by omega, show base + 1 + d - (base + 1) = d by omega]
        simp
      · rw [if_neg h', if_neg (by simp; omega)]

@[simp] theorem Memory.length_readBytes (m : Memory) (base n : Nat) : (Memory.readBytes m base n).length = n := by
  simp [Memory.readBytes]

theorem Memory.getElem_readBytes (m : Memory) (base n j : Nat) (h : j < n) :
    (Memory.readBytes m base n)[j]'(by simpa using h) = Memory.read m (base + j) := by
  simp [Memory.readBytes]

@[simp] theorem Hwr.length_payload (h : Hwr) (n : Nat) : (h.payload n).length = n := by
  simp [Hwr.payload]

/-- The payload of a copy is IMG's bytes. -/
theorem Hwr.payload_copied (m : Memory) (n : Nat) : Hwr.payload (.copied m) n = Memory.readBytes m 0 n := by
  simp [Hwr.payload, Hwr.read, Memory.readBytes]

/-! ### The canonical form -/

theorem Memory.wf_iff (m : Memory) :
    Memory.wf m = true ↔ m.Pairwise (fun a b => a.1 < b.1) ∧ ∀ e ∈ m, e.2 ≠ 0 := by
  simp [Memory.wf]

theorem Memory.wf_nil : Memory.wf [] = true := by decide

theorem Memory.mem_insert {m : Memory} {k : Nat} {v : Byte} {e : Host.Cell} :
    e ∈ Memory.insert m k v ↔ e = (k, v) ∨ e ∈ m := by
  induction m with
  | nil => simp [Memory.insert]
  | cons a m ih =>
    unfold Memory.insert
    split
    · simp
    · simp only [List.mem_cons, ih]
      tauto

theorem Memory.wf_erase {m : Memory} (k : Nat) (h : Memory.wf m = true) : Memory.wf (Memory.erase m k) = true := by
  rw [Memory.wf_iff] at h ⊢
  exact ⟨h.1.filter _, fun e he => h.2 e (List.mem_of_mem_filter he)⟩

theorem Memory.wf_insert {m : Memory} {k : Nat} {v : Byte} (hv : v ≠ 0) (hk : ∀ e ∈ m, e.1 ≠ k)
    (h : Memory.wf m = true) : Memory.wf (Memory.insert m k v) = true := by
  rw [Memory.wf_iff] at h ⊢
  refine ⟨?_, fun e he => ?_⟩
  · have hp := h.1
    clear h
    induction m with
    | nil => simp [Memory.insert]
    | cons a m ih =>
      rw [List.pairwise_cons] at hp
      have ha := hk a (by simp)
      unfold Memory.insert
      split
      · rename_i hlt
        refine List.pairwise_cons.2 ⟨fun b hb => ?_, List.pairwise_cons.2 hp⟩
        rcases List.mem_cons.1 hb with rfl | hb
        · exact hlt
        · exact lt_trans hlt (hp.1 b hb)
      · refine List.pairwise_cons.2 ⟨fun b hb => ?_, ih (fun e he => hk e (by simp [he])) hp.2⟩
        rcases Memory.mem_insert.1 hb with rfl | hb
        · show a.1 < k
          omega
        · exact hp.1 b hb
  · rcases Memory.mem_insert.1 he with rfl | he
    · exact hv
    · exact h.2 e he

/-- A write keeps the canonical form. -/
theorem Memory.wf_write {m : Memory} (k : Nat) (v : Byte) (h : Memory.wf m = true) :
    Memory.wf (Memory.write m k v) = true := by
  unfold Memory.write
  split
  · exact Memory.wf_erase k h
  · rename_i hv
    exact Memory.wf_insert hv Memory.erase_ne (Memory.wf_erase k h)

/-- `MemWrite` keeps the canonical form. -/
theorem Memory.wf_writeBytes (vs : List Byte) {m : Memory} (base : Nat) (h : Memory.wf m = true) :
    Memory.wf (Memory.writeBytes m base vs) = true := by
  induction vs generalizing m base with
  | nil => exact h
  | cons v vs ih => exact ih _ (Memory.wf_write base v h)

/-- A write lists no address but its own and those listed before. -/
theorem Memory.mem_write {m : Memory} {k : Nat} {v : Byte} {e : Host.Cell} (h : e ∈ Memory.write m k v) :
    e.1 = k ∨ e ∈ m := by
  unfold Memory.write at h
  split at h
  · exact .inr (List.mem_of_mem_filter h)
  · rcases Memory.mem_insert.1 h with rfl | h
    · exact .inl rfl
    · exact .inr (List.mem_of_mem_filter h)

/-- `MemWrite` lists no address but its own and those listed before. -/
theorem Memory.mem_writeBytes (vs : List Byte) {m : Memory} {base : Nat} {e : Host.Cell}
    (h : e ∈ Memory.writeBytes m base vs) : (base ≤ e.1 ∧ e.1 < base + vs.length) ∨ e ∈ m := by
  induction vs generalizing m base with
  | nil => exact .inr h
  | cons v vs ih =>
    simp only [List.length_cons]
    rcases ih h with h | h
    · left; omega
    · rcases Memory.mem_write h with h | h
      · left; omega
      · exact .inr h

theorem Memory.read_of_mem {m : Memory} (h : Memory.wf m = true) {e : Host.Cell} (he : e ∈ m) :
    Memory.read m e.1 = e.2 := by
  have hp := ((Memory.wf_iff m).1 h).1
  clear h
  induction m with
  | nil => simp at he
  | cons a m ih =>
    rw [List.pairwise_cons] at hp
    rw [Memory.read_cons]
    rcases List.mem_cons.1 he with rfl | he
    · rw [if_pos rfl]
    · rw [if_neg (Nat.ne_of_lt (hp.1 e he)), ih he hp.2]

/-- Two memories in canonical form that read the same everywhere are equal data. -/
theorem Memory.ext_of_wf {m m' : Memory} (h : Memory.wf m = true) (h' : Memory.wf m' = true)
    (hr : ∀ k, Memory.read m k = Memory.read m' k) : m = m' := by
  have key : ∀ {a b : Memory}, Memory.wf a = true → Memory.wf b = true →
      (∀ k, Memory.read a k = Memory.read b k) → ∀ e ∈ a, e ∈ b := by
    intro a b ha hb hab e he
    have h1 : Memory.read b e.1 = e.2 := by rw [← hab, Memory.read_of_mem ha he]
    have h2 : e.2 ≠ 0 := ((Memory.wf_iff a).1 ha).2 e he
    obtain ⟨f, hf, hfe⟩ := Memory.read_mem (m := b) (k := e.1) (by rw [h1]; exact h2)
    have h3 : f.2 = e.2 := by rw [← Memory.read_of_mem hb hf, hfe, h1]
    have h4 : f = e := Prod.ext hfe h3
    exact h4 ▸ hf
  have hp := ((Memory.wf_iff m).1 h).1
  have hp' := ((Memory.wf_iff m').1 h').1
  have nd : ∀ {a : Memory}, a.Pairwise (fun a b => a.1 < b.1) → a.Nodup := fun ha =>
    ha.imp fun hlt heq => by simp [heq] at hlt
  exact ((List.perm_ext_iff_of_nodup (nd hp) (nd hp')).2 fun e =>
    ⟨key h h' hr e, key h' h (fun k => (hr k).symm) e⟩).eq_of_pairwise
      (fun a b _ _ hab hba => absurd hab (by omega)) hp hp'

end Sys2Proof.Machine
end

