-- ==== Sys2Proof/Laws/State.lean ====
section
/-! SUPPORT. One lemma per field per update of the state (the updates of Machine/Ops.lean), so that no later proof unfolds a
record update. -/

namespace Sys2Proof.Machine

variable (s : State)

@[simp] theorem State.raise_eq (r : Result) : s.raise r = s.finish r := rfl

@[simp] theorem State.done_eq : s.done = s.finish .ok := rfl

@[simp] theorem State.driveSymbol_eq (k : PulseCode) :
    s.driveSymbol k = s.drive (symbolLevels k) (k.getLsbD 0) := rfl

/-! ### `setPhase` -/

@[simp] theorem State.setPhase_phase (p : Phase) : (s.setPhase p).phase = p := rfl
@[simp] theorem State.setPhase_clk (p : Phase) : (s.setPhase p).clk = s.clk := rfl
@[simp] theorem State.setPhase_out (p : Phase) : (s.setPhase p).out = s.out := rfl
@[simp] theorem State.setPhase_lineLevel (p : Phase) : (s.setPhase p).lineLevel = s.lineLevel := rfl
@[simp] theorem State.setPhase_wire (p : Phase) : (s.setPhase p).wire = s.wire := rfl
@[simp] theorem State.setPhase_results (p : Phase) : (s.setPhase p).results = s.results := rfl
@[simp] theorem State.setPhase_host (p : Phase) : (s.setPhase p).host = s.host := rfl
@[simp] theorem State.setPhase_answers (p : Phase) : (s.setPhase p).answers = s.answers := rfl
@[simp] theorem State.setPhase_symbols (p : Phase) : (s.setPhase p).symbols = s.symbols := rfl
@[simp] theorem State.setPhase_draws (p : Phase) : (s.setPhase p).draws = s.draws := rfl

/-! ### `setClk` -/

@[simp] theorem State.setClk_phase (hz : BitVec 32) : (s.setClk hz).phase = s.phase := rfl
@[simp] theorem State.setClk_clk (hz : BitVec 32) : (s.setClk hz).clk = hz := rfl
@[simp] theorem State.setClk_out (hz : BitVec 32) : (s.setClk hz).out = s.out := rfl
@[simp] theorem State.setClk_lineLevel (hz : BitVec 32) : (s.setClk hz).lineLevel = s.lineLevel := rfl
@[simp] theorem State.setClk_wire (hz : BitVec 32) : (s.setClk hz).wire = s.wire := rfl
@[simp] theorem State.setClk_results (hz : BitVec 32) : (s.setClk hz).results = s.results := rfl
@[simp] theorem State.setClk_host (hz : BitVec 32) : (s.setClk hz).host = s.host := rfl
@[simp] theorem State.setClk_answers (hz : BitVec 32) : (s.setClk hz).answers = s.answers := rfl
@[simp] theorem State.setClk_symbols (hz : BitVec 32) : (s.setClk hz).symbols = s.symbols := rfl
@[simp] theorem State.setClk_draws (hz : BitVec 32) : (s.setClk hz).draws = s.draws := rfl

/-! ### `emit` -/

@[simp] theorem State.emit_phase (e : Event) : (s.emit e).phase = s.phase := rfl
@[simp] theorem State.emit_clk (e : Event) : (s.emit e).clk = s.clk := rfl
@[simp] theorem State.emit_out (e : Event) : (s.emit e).out = s.out ++ [e] := rfl
@[simp] theorem State.emit_lineLevel (e : Event) : (s.emit e).lineLevel = s.lineLevel := rfl
@[simp] theorem State.emit_wire (e : Event) : (s.emit e).wire = s.wire := rfl
@[simp] theorem State.emit_results (e : Event) : (s.emit e).results = s.results := rfl
@[simp] theorem State.emit_host (e : Event) : (s.emit e).host = s.host := rfl
@[simp] theorem State.emit_answers (e : Event) : (s.emit e).answers = s.answers := rfl
@[simp] theorem State.emit_symbols (e : Event) : (s.emit e).symbols = s.symbols := rfl
@[simp] theorem State.emit_draws (e : Event) : (s.emit e).draws = s.draws := rfl

/-! ### `finish` -/

@[simp] theorem State.finish_phase (r : Result) : (s.finish r).phase = s.phase := rfl
@[simp] theorem State.finish_clk (r : Result) : (s.finish r).clk = s.clk := rfl
@[simp] theorem State.finish_out (r : Result) : (s.finish r).out = s.out := rfl
@[simp] theorem State.finish_lineLevel (r : Result) : (s.finish r).lineLevel = s.lineLevel := rfl
@[simp] theorem State.finish_wire (r : Result) : (s.finish r).wire = s.wire := rfl
@[simp] theorem State.finish_results (r : Result) : (s.finish r).results = s.results ++ [r] := rfl
@[simp] theorem State.finish_host (r : Result) : (s.finish r).host = s.host := rfl
@[simp] theorem State.finish_answers (r : Result) : (s.finish r).answers = s.answers := rfl
@[simp] theorem State.finish_symbols (r : Result) : (s.finish r).symbols = s.symbols := rfl
@[simp] theorem State.finish_draws (r : Result) : (s.finish r).draws = s.draws := rfl

/-! ### `drew` -/

@[simp] theorem State.drew_phase : (s.drew).phase = s.phase := rfl
@[simp] theorem State.drew_clk : (s.drew).clk = s.clk := rfl
@[simp] theorem State.drew_out : (s.drew).out = s.out := rfl
@[simp] theorem State.drew_lineLevel : (s.drew).lineLevel = s.lineLevel := rfl
@[simp] theorem State.drew_wire : (s.drew).wire = s.wire := rfl
@[simp] theorem State.drew_results : (s.drew).results = s.results := rfl
@[simp] theorem State.drew_host : (s.drew).host = s.host := rfl
@[simp] theorem State.drew_answers : (s.drew).answers = s.answers := rfl
@[simp] theorem State.drew_symbols : (s.drew).symbols = s.symbols := rfl
@[simp] theorem State.drew_draws : (s.drew).draws = s.draws + 1 := rfl

/-! ### `drive` -/

@[simp] theorem State.drive_phase (bits : List Bool) (level : Bool) : (s.drive bits level).phase = s.phase := rfl
@[simp] theorem State.drive_clk (bits : List Bool) (level : Bool) : (s.drive bits level).clk = s.clk := rfl
@[simp] theorem State.drive_out (bits : List Bool) (level : Bool) : (s.drive bits level).out = s.out := rfl
@[simp] theorem State.drive_lineLevel (bits : List Bool) (level : Bool) : (s.drive bits level).lineLevel = level := rfl
@[simp] theorem State.drive_wire (bits : List Bool) (level : Bool) : (s.drive bits level).wire = s.wire ++ [bits] := rfl
@[simp] theorem State.drive_results (bits : List Bool) (level : Bool) : (s.drive bits level).results = s.results := rfl
@[simp] theorem State.drive_host (bits : List Bool) (level : Bool) : (s.drive bits level).host = s.host := rfl
@[simp] theorem State.drive_answers (bits : List Bool) (level : Bool) : (s.drive bits level).answers = s.answers := rfl
@[simp] theorem State.drive_symbols (bits : List Bool) (level : Bool) : (s.drive bits level).symbols = s.symbols := rfl
@[simp] theorem State.drive_draws (bits : List Bool) (level : Bool) : (s.drive bits level).draws = s.draws := rfl

/-! ### `loseClk` -/

@[simp] theorem State.loseClk_phase : (s.loseClk).phase = s.phase := rfl
@[simp] theorem State.loseClk_clk : (s.loseClk).clk = Config.freeClock s.draws := rfl
@[simp] theorem State.loseClk_out : (s.loseClk).out = s.out := rfl
@[simp] theorem State.loseClk_lineLevel : (s.loseClk).lineLevel = s.lineLevel := rfl
@[simp] theorem State.loseClk_wire : (s.loseClk).wire = s.wire := rfl
@[simp] theorem State.loseClk_results : (s.loseClk).results = s.results := rfl
@[simp] theorem State.loseClk_host : (s.loseClk).host = s.host := rfl
@[simp] theorem State.loseClk_answers : (s.loseClk).answers = s.answers := rfl
@[simp] theorem State.loseClk_symbols : (s.loseClk).symbols = s.symbols := rfl
@[simp] theorem State.loseClk_draws : (s.loseClk).draws = s.draws + 1 := rfl

/-! ### `beginSession` -/

@[simp] theorem State.beginSession_phase (n : Nat) :
    (s.beginSession n).phase = .usable { ledCount := n, img := [], hwr := .drawn s.draws, xfer := none } := rfl
@[simp] theorem State.beginSession_clk (n : Nat) : (s.beginSession n).clk = s.clk := rfl
@[simp] theorem State.beginSession_out (n : Nat) : (s.beginSession n).out = s.out := rfl
@[simp] theorem State.beginSession_lineLevel (n : Nat) : (s.beginSession n).lineLevel = s.lineLevel := rfl
@[simp] theorem State.beginSession_wire (n : Nat) : (s.beginSession n).wire = s.wire := rfl
@[simp] theorem State.beginSession_results (n : Nat) : (s.beginSession n).results = s.results := rfl
@[simp] theorem State.beginSession_host (n : Nat) : (s.beginSession n).host = s.host := rfl
@[simp] theorem State.beginSession_answers (n : Nat) : (s.beginSession n).answers = s.answers := rfl
@[simp] theorem State.beginSession_symbols (n : Nat) : (s.beginSession n).symbols = s.symbols := rfl
@[simp] theorem State.beginSession_draws (n : Nat) : (s.beginSession n).draws = s.draws + 1 := rfl

end Sys2Proof.Machine
end

