-- ==== Sys2Proof/Laws/Ops.lean ====
section
/-! SUPPORT. For each shared operation and each meaning one lemma that says everything it can do, so that later proofs
cite it and do not unfold the operation; and what a step can be. -/

namespace Sys2Proof.Machine

/-! ### Addresses -/

@[simp] theorem length_be3 (w : EncodedChannel) : (be3 w).length = 3 := rfl

@[simp] theorem length_slotData (c : Cfg) (r g b : Byte) : (slotData c r g b).length = 9 := rfl

/-- The store of rule R84 stays below the trail padding and so inside IMG (rule R93 b). -/
theorem slot_inside (c : Cfg) {i n : Nat} (h : i < n) :
    slotBase c i + slotBytes ≤ slotBytes * (c.leadOffset + n) ∧ slotBytes * (c.leadOffset + n) ≤ bufLen c n := by
  simp only [slotBase, slotBytes, bufLen]
  omega

/-- What the store of a slot does to every byte of IMG (rules R32, R84). -/
theorem Memory.read_store_slot (m : Memory) (c : Cfg) (i : Nat) (r g b : Byte) (k : Nat) :
    Memory.read (Memory.writeBytes m (slotBase c i) (slotData c r g b)) k =
      if InSlot c i k then (slotData c r g b).getD (k - slotBase c i) 0 else Memory.read m k := by
  rw [Memory.read_writeBytes]
  exact if_congr Iff.rfl rfl rfl

/-! ### Asking the DEVICE -/

/-- `ask` takes the next answer listed, or draws a free one, and changes nothing else. -/
theorem State.ask_cases (s : State) :
    (∃ a rest, s.answers = a :: rest ∧ s.ask = (a, { s with answers := rest })) ∨
      (s.answers = [] ∧ s.ask = (Config.freeAnswer s.draws, s.drew)) := by
  unfold State.ask
  cases h : s.answers with
  | nil => exact .inr ⟨rfl, rfl⟩
  | cons a rest => exact .inl ⟨a, rest, rfl, rfl⟩

theorem State.ask_of_cons {s : State} {a : Answer} {rest : List Answer} (h : s.answers = a :: rest) :
    s.ask = (a, { s with answers := rest }) := by
  simp [State.ask, h]

/-- After `ask` only the inputs of the model differ. -/
theorem State.ask_frame (s : State) :
    ∃ l n, s.ask.2 = { s with answers := l, draws := n } := by
  rcases s.ask_cases with ⟨a, rest, -, h⟩ | ⟨-, h⟩
  · exact ⟨rest, s.draws, by rw [h]⟩
  · exact ⟨s.answers, s.draws + 1, by rw [h]; rfl⟩

/-- `abandon` ends the session, with a trailing Close or without (rule R83). -/
theorem State.abandon_cases (s : State) :
    ∃ es, (es = [] ∨ es = [.close]) ∧
      s.abandon = { s with phase := .released, out := s.out ++ es, draws := s.draws + 1 } := by
  unfold State.abandon
  split
  · exact ⟨[.close], .inr rfl, rfl⟩
  · exact ⟨[], .inl rfl, by simp [State.setPhase, State.drew]⟩

/-! ### CONSTRUCT -/

/-- The events of a CONSTRUCT that ends in USABLE (rule R81). -/
def openEvents (c : Cfg) (n : Nat) : List Event :=
  [.openDevice Config.devicePath, .setClock c.clockHz, .mapBuffer (bufLen c n)]

/-- The state after a CONSTRUCT of n LEDs that ended in USABLE with the events es more in OUT (rule R81). -/
abbrev opened (c : Cfg) (n : Nat) (s : State) (es : List Event) (d : Nat) (l : List Answer) (k : Nat) : State :=
  { s with
    phase := .usable { ledCount := n, img := [], hwr := .drawn d, xfer := none }
    clk := c.clockHz
    out := s.out ++ es
    results := s.results ++ [.ok]
    answers := l
    draws := k }

/-- The state after a CONSTRUCT that ended the session with result r, the events es more in OUT and CLK at hz
(rule R83). -/
abbrev refused (s : State) (es : List Event) (hz : BitVec 32) (r : Result) (l : List Answer) (k : Nat) : State :=
  { s with
    phase := .released
    clk := hz
    out := s.out ++ es
    results := s.results ++ [r]
    answers := l
    draws := k }

/-- A trailing Close or none (rule R83). -/
abbrev CloseOrNone (cs : List Event) : Prop := cs = [] ∨ cs = [.close]

/-- CONSTRUCT from `emit Map` on either opens the session or fails with DeviceUnavailable. -/
theorem constructMap_cases (c : Cfg) (n : Nat) (s : State) (h : s.clk = c.clockHz) :
    (∃ d l k, constructMap c n s = opened c n s [.mapBuffer (bufLen c n)] d l k) ∨
    (∃ cs l k, CloseOrNone cs ∧
      constructMap c n s = refused s ([.mapBuffer (bufLen c n)] ++ cs) c.clockHz .deviceUnavailable l k) := by
  obtain ⟨l, k, h1⟩ := (s.emit (.mapBuffer (bufLen c n))).ask_frame
  unfold constructMap
  rcases ha : (s.emit (.mapBuffer (bufLen c n))).ask with ⟨a, t⟩
  rw [ha] at h1
  simp only at h1
  cases a with
  | ok =>
    left
    exact ⟨k, l, k + 1, by simp [h1, opened, State.beginSession, State.setPhase, State.drew, State.finish, State.emit, h]⟩
  | fail =>
    right
    obtain ⟨cs, hcs, h2⟩ := t.abandon_cases
    exact ⟨cs, l, k + 1, hcs, by
      simp only [State.raise_eq, h2]
      simp [h1, refused, State.finish, State.emit, h]⟩

/-- CONSTRUCT from `emit SetClock` on. -/
theorem constructClock_cases (c : Cfg) (n : Nat) (s : State) :
    (∃ d l k, constructClock c n s = opened c n s [.setClock c.clockHz, .mapBuffer (bufLen c n)] d l k) ∨
    (∃ es cs hz r l k, es <+: [.setClock c.clockHz, .mapBuffer (bufLen c n)] ∧ CloseOrNone cs ∧
      (r = .deviceUnavailable ∨ r = .configurationError) ∧
      constructClock c n s = refused s (es ++ cs) hz r l k) := by
  obtain ⟨l, k, h1⟩ := (s.emit (.setClock c.clockHz)).ask_frame
  unfold constructClock
  rcases ha : (s.emit (.setClock c.clockHz)).ask with ⟨a, t⟩
  rw [ha] at h1
  simp only at h1
  cases a with
  | ok =>
    simp only
    rcases constructMap_cases c n (t.setClk c.clockHz) rfl with ⟨d, l', k', h2⟩ | ⟨cs, l', k', hcs, h2⟩
    · exact .inl ⟨d, l', k', by rw [h2]; simp [h1, opened, State.setClk, State.emit]⟩
    · exact .inr ⟨_, cs, c.clockHz, .deviceUnavailable, l', k', List.prefix_refl _, hcs, .inl rfl,
        by rw [h2]; simp [h1, refused, State.setClk, State.emit]⟩
  | fail =>
    right
    obtain ⟨cs, hcs, h2⟩ := t.loseClk.abandon_cases
    exact ⟨[.setClock c.clockHz], cs, _, .configurationError, l, k + 1 + 1, by simp, hcs, .inr rfl, by
      simp only [State.raise_eq, h2]
      simp [h1, refused, State.loseClk, State.setClk, State.drew, State.finish, State.emit]
      rfl⟩

/-- CONSTRUCT from `emit Open` on. -/
theorem constructOpen_cases (c : Cfg) (n : Nat) (s : State) :
    (∃ d l k, constructOpen c n s = opened c n s (openEvents c n) d l k) ∨
    (∃ es cs hz r l k, es <+: openEvents c n ∧ CloseOrNone cs ∧
      (r = .deviceUnavailable ∨ r = .configurationError) ∧
      constructOpen c n s = refused s (es ++ cs) hz r l k) := by
  obtain ⟨l, k, h1⟩ := (s.emit (.openDevice Config.devicePath)).ask_frame
  unfold constructOpen
  rcases ha : (s.emit (.openDevice Config.devicePath)).ask with ⟨a, t⟩
  rw [ha] at h1
  simp only at h1
  cases a with
  | ok =>
    simp only
    rcases constructClock_cases c n t with ⟨d, l', k', h2⟩ | ⟨es, cs, hz, r, l', k', hes, hcs, hr, h2⟩
    · exact .inl ⟨d, l', k', by rw [h2]; simp [h1, opened, openEvents, State.emit]⟩
    · exact .inr ⟨.openDevice Config.devicePath :: es, cs, hz, r, l', k',
        List.cons_prefix_cons.2 ⟨rfl, hes⟩, hcs, hr, by rw [h2]; simp [h1, refused, State.emit]⟩
  | fail =>
    right
    exact ⟨[.openDevice Config.devicePath], [], s.clk, .deviceUnavailable, l, k, by simp [openEvents], .inl rfl, .inl rfl,
      by simp [h1, refused, State.setPhase, State.finish, State.emit]⟩

/-- Everything CONSTRUCT can do (rules R81, R83): refuse with nothing changed, open a session, or fail fatally. In the
last two only the phase, CLK, OUT, the result and the model's inputs differ. -/
theorem construct_cases (c : Cfg) (n : Nat) (s : State) :
    (s.phase ≠ .unbuilt ∧ construct c n s = s.finish .notUsable) ∨
    (s.phase = .unbuilt ∧ ¬ LedCountOk c n ∧ construct c n s = s.finish .invalidLedCount) ∨
    (s.phase = .unbuilt ∧ LedCountOk c n ∧ ∃ d l k, construct c n s = opened c n s (openEvents c n) d l k) ∨
    (s.phase = .unbuilt ∧ LedCountOk c n ∧ ∃ es cs hz r l k, es <+: openEvents c n ∧ CloseOrNone cs ∧
      (r = .deviceUnavailable ∨ r = .configurationError) ∧ construct c n s = refused s (es ++ cs) hz r l k) := by
  unfold construct
  cases hp : s.phase with
  | usable x => exact .inl ⟨by simp, rfl⟩
  | released => exact .inl ⟨by simp, rfl⟩
  | unbuilt =>
    by_cases hn : LedCountOk c n
    · simp only [if_pos hn]
      rcases constructOpen_cases c n s with h | h
      · exact .inr (.inr (.inl ⟨trivial, hn, h⟩))
      · exact .inr (.inr (.inr ⟨trivial, hn, h⟩))
    · exact .inr (.inl ⟨rfl, hn, by simp only [if_neg hn, State.raise_eq]⟩)

/-! ### The commands of a session -/

/-- `whenUsable` outside USABLE raises NotUsable (rule R126). -/
theorem State.whenUsable_of_ne {s : State} (k : Session → Host.Outcome State Fault Refusal)
    (h : ∀ x, s.phase ≠ .usable x) : s.whenUsable k = .next (s.finish .notUsable) := by
  unfold State.whenUsable
  cases hp : s.phase with
  | usable x => exact absurd hp (h x)
  | unbuilt => rfl
  | released => rfl

theorem State.whenUsable_of_usable {s : State} {x : Session} (k : Session → Host.Outcome State Fault Refusal)
    (h : s.phase = .usable x) : s.whenUsable k = k x := by
  simp [State.whenUsable, h]

/-- A session's store of a slot succeeds (rule R30: no rule forms an address that does not exist). -/
theorem Session.store_slot (c : Cfg) (x : Session) {i : Nat} (r g b : Byte) (h : i < x.ledCount) :
    x.store c (slotBase c i) (slotData c r g b)
      = .ok { x with img := Memory.writeBytes x.img (slotBase c i) (slotData c r g b) } := by
  have := slot_inside c h
  unfold Session.store Session.bufLen
  rw [if_pos]
  simp only [length_slotData, slotBytes] at this ⊢
  omega

/-- Everything the slot write can do (rule R84). It never faults. -/
theorem setColour_cases (c : Cfg) (i : Nat) (r g b : Byte) (s : State) :
    ((∀ x, s.phase ≠ .usable x) ∧ setColour c i r g b s = .next (s.finish .notUsable)) ∨
    (∃ x, s.phase = .usable x ∧ x.ledCount ≤ i ∧ setColour c i r g b s = .next (s.finish .invalidIndex)) ∨
    (∃ x, s.phase = .usable x ∧ i < x.ledCount ∧ setColour c i r g b s = .next ((s.setPhase (.usable
      { x with img := Memory.writeBytes x.img (slotBase c i) (slotData c r g b) })).finish .ok)) := by
  unfold setColour
  cases hp : s.phase with
  | unbuilt => exact .inl ⟨by simp, State.whenUsable_of_ne _ (by simp [hp])⟩
  | released => exact .inl ⟨by simp, State.whenUsable_of_ne _ (by simp [hp])⟩
  | usable x =>
    right
    rw [State.whenUsable_of_usable _ hp]
    by_cases hi : i < x.ledCount
    · exact .inr ⟨x, rfl, hi, by simp [hi, Session.store_slot]⟩
    · exact .inl ⟨x, rfl, by omega, by simp [hi]⟩

/-- Everything COMMIT's first step can do (rule R87). -/
theorem commit_cases (c : Cfg) (s : State) :
    ((∀ x, s.phase ≠ .usable x) ∧ commit c s = .next (s.finish .notUsable)) ∨
    (∃ x, s.phase = .usable x ∧ commit c s = .next { s with
      phase := .usable { x with hwr := .copied x.img, xfer := some { cmdLen := 0, dataLen := x.bufLen c } }
      out := s.out ++ [.transfer { cmdLen := 0, dataLen := x.bufLen c } (Memory.readBytes x.img 0 (x.bufLen c))] }) := by
  unfold commit
  cases hp : s.phase with
  | unbuilt => exact .inl ⟨by simp, State.whenUsable_of_ne _ (by simp [hp])⟩
  | released => exact .inl ⟨by simp, State.whenUsable_of_ne _ (by simp [hp])⟩
  | usable x =>
    refine .inr ⟨x, rfl, ?_⟩
    rw [State.whenUsable_of_usable _ hp]
    simp [publishImage, Session.publish, Hwr.payload_copied, State.setPhase, State.emit]

/-- Everything RELEASE can do (rule R91). -/
theorem execRelease_cases (s : State) :
    ((∀ x, s.phase ≠ .usable x) ∧ execRelease s = .next (s.finish .notUsable)) ∨
    (∃ x, s.phase = .usable x ∧ execRelease s = .next { s with
      phase := .released, out := s.out ++ [.unmap, .close], results := s.results ++ [.ok] }) := by
  unfold execRelease
  cases hp : s.phase with
  | unbuilt => exact .inl ⟨by simp, State.whenUsable_of_ne _ (by simp [hp])⟩
  | released => exact .inl ⟨by simp, State.whenUsable_of_ne _ (by simp [hp])⟩
  | usable x =>
    refine .inr ⟨x, rfl, ?_⟩
    rw [State.whenUsable_of_usable _ hp]
    simp [endSession, State.setPhase, State.emit, State.finish]

/-- Everything the DEVICE's answer does (rules R87, R88): only the session's HWR and transfer, the data line, the result
and the draw differ. -/
theorem answerTransfer_eq (c : Cfg) (x : Session) (a : Answer) (s : State) :
    answerTransfer c x a s = { s with
      phase := .usable { x with hwr := .drawn s.draws, xfer := none }
      lineLevel := Config.lineIdle
      wire := s.wire ++ [bitsSent c x s.draws a]
      results := s.results ++ [transferResult a]
      draws := s.draws + 1 } := rfl

/-! ### Reset and the step -/

/-- Everything the reset event does (rule R140). -/
theorem State.resetBlock_eq (s : State) :
    s.resetBlock = { s with
      phase := .unbuilt, clk := Config.freeClock s.draws, out := [], lineLevel := Config.lineIdle
      draws := s.draws + 1 } := rfl

theorem State.inFlight_eq_some {s : State} {x : Session} :
    s.inFlight = some x ↔ s.phase = .usable x ∧ x.xfer ≠ none := by
  unfold State.inFlight
  cases hp : s.phase with
  | unbuilt => simp
  | released => simp
  | usable y =>
    simp only [Option.ite_none_right_eq_some, Option.some.injEq, Phase.usable.injEq, Option.isSome_iff_ne_none]
    constructor
    · rintro ⟨h, rfl⟩
      exact ⟨rfl, h⟩
    · rintro ⟨rfl, h⟩
      exact ⟨h, rfl⟩

/-- Every move the machine can make, with the state it is made from. -/
theorem State.nextMove_cases (s : State) :
    (∃ k rest, s.symbols = k :: rest ∧ s.nextMove = .run (.symbol k) { s with symbols := rest }) ∨
    (∃ x a rest, s.symbols = [] ∧ s.inFlight = some x ∧ s.answers = a :: rest ∧
      s.nextMove = .answer x a { s with answers := rest }) ∨
    (∃ x, s.symbols = [] ∧ s.inFlight = some x ∧ s.answers = [] ∧ s.nextMove = .idle) ∨
    (∃ w rest, s.symbols = [] ∧ s.inFlight = none ∧ s.host = .command w :: rest ∧
      s.nextMove = .run (.command w) { s with host := rest }) ∨
    (∃ rest, s.symbols = [] ∧ s.inFlight = none ∧ s.host = .reset :: rest ∧
      s.nextMove = .reset { s with host := rest }) ∨
    (s.symbols = [] ∧ s.inFlight = none ∧ s.host = [] ∧ s.nextMove = .idle) := by
  unfold State.nextMove
  cases hs : s.symbols with
  | cons k rest => exact .inl ⟨k, rest, rfl, rfl⟩
  | nil =>
    right
    cases hf : s.inFlight with
    | some x =>
      cases ha : s.answers with
      | cons a rest => exact .inl ⟨x, a, rest, rfl, rfl, rfl, rfl⟩
      | nil => exact .inr (.inl ⟨x, rfl, rfl, rfl, rfl⟩)
    | none =>
      right; right
      cases hh : s.host with
      | nil => exact .inr (.inr ⟨rfl, rfl, rfl, rfl⟩)
      | cons e rest =>
        cases e with
        | command w => exact .inl ⟨w, rest, rfl, rfl, rfl, rfl⟩
        | reset => exact .inr (.inl ⟨rest, rfl, rfl, rfl, rfl⟩)

/-- What a step is, for each move, whatever the configuration, the decoder and the meanings. -/
theorem runMove_of_run {c : Cfg} {dec : Code → Except DecodeError Instr}
    {run : Instr → State → Host.Outcome State Fault Refusal} {s t : State} {w : Code} (h : s.nextMove = .run w t) :
    (∀ i, dec w = .ok i → runMove c dec run s = run i t) ∧
    (∀ e, dec w = .error e → runMove c dec run s = .next (t.reject w)) := by
  constructor <;> intro r hd <;> simp only [runMove, h, hd]

theorem runMove_of_answer {c : Cfg} {dec : Code → Except DecodeError Instr}
    {run : Instr → State → Host.Outcome State Fault Refusal} {s t : State} {x : Session} {a : Answer}
    (h : s.nextMove = .answer x a t) : runMove c dec run s = .next (answerTransfer c x a t) := by
  simp only [runMove, h]

theorem runMove_of_reset {c : Cfg} {dec : Code → Except DecodeError Instr}
    {run : Instr → State → Host.Outcome State Fault Refusal} {s t : State} (h : s.nextMove = .reset t) :
    runMove c dec run s = .next t.resetBlock := by
  simp only [runMove, h]

theorem runMove_of_idle {c : Cfg} {dec : Code → Except DecodeError Instr}
    {run : Instr → State → Host.Outcome State Fault Refusal} {s : State} (h : s.nextMove = .idle) :
    runMove c dec run s = .next s := by
  simp only [runMove, h]

/-- This hardware's constants (rule R5). -/
@[simp] theorem cfg_leadOffset : cfg.leadOffset = 1 := rfl
@[simp] theorem cfg_trailZeroCount : cfg.trailZeroCount = 3 := rfl
@[simp] theorem cfg_one : cfg.one = 0b110#3 := rfl
@[simp] theorem cfg_zero : cfg.zero = 0b100#3 := rfl
@[simp] theorem cfg_clockHz : cfg.clockHz = 3000000#32 := rfl
@[simp] theorem cfg_wireMsbFirst : cfg.wireMsbFirst = true := rfl

theorem bufLen_cfg (n : Nat) : bufLen cfg n = 9 * (n + 4) := by
  simp only [bufLen, slotBytes, cfg_leadOffset, cfg_trailZeroCount]

/-- A strip of one to three LEDs is admitted whatever WORD_W is (log entry 5 leaves it at least 6). -/
theorem ledCountOk_small {n : Nat} (h : 1 ≤ n) (h' : n ≤ 3) : LedCountOk cfg n := by
  refine ⟨h, ?_⟩
  rw [bufLen_cfg]
  calc 9 * (n + 4) < 2 ^ 6 := by omega
    _ ≤ 2 ^ cfg.wordW := Nat.pow_le_pow_right (by decide) (Nat.le_add_right 6 _)

end Sys2Proof.Machine
end

