-- ==== Sys2Proof/Laws/PerInstr.lean ====
section
/-! SUPPORT. Laws stated per instruction, one lemma per constructor of Instr. MatchesRow: the code the encoder writes has
the match bits of the instruction's own row of spec/opcode_table.json under that row's mask (rules R58, R50). -/

namespace Sys2Proof.Laws.MatchesRow

/-- The code of the instruction matches its row. -/
def Statement : Instr → Prop
  | .construct n  => ∃ w, encode (.construct n) = .command w ∧ w &&& 0xFF00000000FFFFFF#64 = 0x1000000000000000#64
  | .setc i r g b => ∃ w, encode (.setc i r g b) = .command w ∧ w &&& 0xFF00000000000000#64 = 0x2000000000000000#64
  | .setp i p     => ∃ w, encode (.setp i p) = .command w ∧ w &&& 0xFF00000000000000#64 = 0x3000000000000000#64
  | .commit       => ∃ w, encode .commit = .command w ∧ w &&& 0xFFFFFFFFFFFFFFFF#64 = 0x4000000000000000#64
  | .release      => ∃ w, encode .release = .command w ∧ w &&& 0xFFFFFFFFFFFFFFFF#64 = 0x5000000000000000#64
  | .zero         => ∃ k, encode .zero = .symbol k ∧ k &&& 0x7#3 = 0x4#3
  | .one          => ∃ k, encode .one = .symbol k ∧ k &&& 0x7#3 = 0x6#3

/-- OP and Z are the top byte of a command word, and a mask of that byte keeps nothing else. -/
theorem top_byte (op : BitVec 4) (n : BitVec 32) (c2 c1 c0 : Byte) :
    commandWord op n c2 c1 c0 &&& 0xFF00000000000000#64 = op ++ 0#60 := by
  apply BitVec.eq_of_getLsbD_eq
  intro k hk
  have hm : (0xFF00000000000000#64).getLsbD k = decide (56 ≤ k) := by
    revert k; decide
  simp only [commandWord, BitVec.getLsbD_and, hm, BitVec.getLsbD_append]
  by_cases h : 56 ≤ k
  · have e1 : ¬ k < 8 := by omega
    have e2 : ¬ k - 8 < 8 := by omega
    have e3 : ¬ k - 8 - 8 < 8 := by omega
    have e4 : ¬ k - 8 - 8 - 8 < 32 := by omega
    by_cases h' : k < 60
    · have e5 : k - 8 - 8 - 8 - 32 < 4 := by omega
      simp [e1, e2, e3, e4, e5, h']
    · have e5 : ¬ k - 8 - 8 - 8 - 32 < 4 := by omega
      have e6 : k - 8 - 8 - 8 - 32 - 4 = k - 60 := by omega
      simp [e1, e2, e3, e4, e5, e6, h, h']
  · have h' : k < 60 := by omega
    simp [h, h']

/-- With C2, C1 and C0 zero the mask of CONSTRUCT keeps nothing more. -/
theorem top_byte_and_colour (op : BitVec 4) (n : BitVec 32) :
    commandWord op n 0 0 0 &&& 0xFF00000000FFFFFF#64 = op ++ 0#60 := by
  rw [← top_byte op n 0 0 0]
  apply BitVec.eq_of_getLsbD_eq
  intro k hk
  have hm : (0xFF00000000FFFFFF#64).getLsbD k = ((0xFF00000000000000#64).getLsbD k || decide (k < 24)) := by
    revert k; decide
  simp only [BitVec.getLsbD_and, hm]
  by_cases h : k < 24
  · have hz : (commandWord op n 0 0 0).getLsbD k = false := by
      simp only [commandWord, BitVec.getLsbD_append]
      by_cases h1 : k < 8
      · simp [h1]
      · by_cases h2 : k - 8 < 8
        · simp [h1, h2]
        · have h3 : k - 8 - 8 < 8 := by omega
          simp [h1, h2, h3]
    rw [hz, Bool.false_and, Bool.false_and]
  · simp [h]

theorem construct (n : Nat) : Statement (.construct n) := ⟨_, rfl, top_byte_and_colour _ _⟩

theorem setc (i : Nat) (r g b : Byte) : Statement (.setc i r g b) := ⟨_, rfl, top_byte _ _ _ _ _⟩

theorem setp (i : Nat) (p : BitVec 24) : Statement (.setp i p) := ⟨_, rfl, top_byte _ _ _ _ _⟩

theorem commit : Statement .commit := ⟨_, rfl, by decide⟩

theorem release : Statement .release := ⟨_, rfl, by decide⟩

theorem zero : Statement .zero := ⟨_, rfl, by decide⟩

theorem one : Statement .one := ⟨_, rfl, by decide⟩

end Sys2Proof.Laws.MatchesRow
end

