-- ==== Sys2Proof/Laws/Step.lean ====
section
/-! SUPPORT. This hardware is the machine of its configuration; and the two inversion lemmas, for every configuration and for
this hardware: everything an instruction can do, and everything a step can be. Later proofs about all instructions or all
steps cite these and unfold neither. -/

namespace Sys2Proof.Machine

/-! ### This hardware is the machine of `cfg` -/

theorem exec_eq (i : Instr) (s : State) : exec i s = execUnder cfg i s := by cases i <;> rfl

theorem decode_eq (w : Code) : decode w = decodeUnder cfg w := by cases w <;> rfl

theorem step_eq (s : State) : step s = stepUnder cfg s := by
  unfold step stepUnder
  rw [funext decode_eq, funext fun i => funext (exec_eq i)]

/-! ### What an instruction can do -/

/-- An instruction that writes a colour into IMG. -/
abbrev Instr.IsSetter (i : Instr) : Prop := (∃ j r g b, i = .setc j r g b) ∨ ∃ j p, i = .setp j p

/-- The state after colour (r, g, b) went into the slot of LED j of session x (rule R84). -/
abbrev coloured (c : Cfg) (s : State) (x : Session) (j : Nat) (r g b : Byte) : State :=
  (s.setPhase (.usable { x with img := Memory.writeBytes x.img (slotBase c j) (slotData c r g b) })).finish .ok

/-- The state after COMMIT's first step in session x (rule R87). -/
abbrev published (c : Cfg) (s : State) (x : Session) : State :=
  { s with
    phase := .usable { x with hwr := .copied x.img, xfer := some { cmdLen := 0, dataLen := x.bufLen c } }
    out := s.out ++ [.transfer { cmdLen := 0, dataLen := x.bufLen c } (Memory.readBytes x.img 0 (x.bufLen c))] }

/-- The state after RELEASE (rule R91). -/
abbrev ended (s : State) : State :=
  { s with phase := .released, out := s.out ++ [.unmap, .close], results := s.results ++ [.ok] }

/-- Everything an instruction can do from s to t, by cases: only a result is returned, CONSTRUCT opens a session, CONSTRUCT
fails fatally, a setter stores, COMMIT publishes, RELEASE ends, a symbol drives the line. -/
abbrev ExecCases (c : Cfg) (i : Instr) (s t : State) : Prop :=
  (∃ r, t = s.finish r) ∨
  (∃ n d l k, s.phase = .unbuilt ∧ LedCountOk c n ∧ i = .construct n ∧ t = opened c n s (openEvents c n) d l k) ∨
  (∃ n es cs hz r l k, s.phase = .unbuilt ∧ LedCountOk c n ∧ es <+: openEvents c n ∧ CloseOrNone cs ∧
    i = .construct n ∧ t = refused s (es ++ cs) hz r l k) ∨
  (∃ x j r g b, s.phase = .usable x ∧ j < x.ledCount ∧ Instr.IsSetter i ∧ t = coloured c s x j r g b) ∨
  (∃ x, s.phase = .usable x ∧ i = .commit ∧ t = published c s x) ∨
  (∃ x, s.phase = .usable x ∧ i = .release ∧ t = ended s) ∨
  ((i = .zero ∨ i = .one) ∧ ∃ k, t = s.driveSymbol k)

/-- Under every configuration an instruction answers a next state, by one of the cases; it never faults and is never
refused. -/
theorem execUnder_cases (c : Cfg) (i : Instr) (s : State) : ∃ t, execUnder c i s = .next t ∧ ExecCases c i s t := by
  have hset : ∀ j r g b, Instr.IsSetter i → execUnder c i s = setColour c j r g b s →
      ∃ t, execUnder c i s = .next t ∧ ExecCases c i s t := by
    intro j r g b hi he
    rw [he]
    rcases setColour_cases c j r g b s with ⟨-, h⟩ | ⟨_, -, -, h⟩ | ⟨y, h1, h2, h⟩
    · exact ⟨_, h, .inl ⟨_, rfl⟩⟩
    · exact ⟨_, h, .inl ⟨_, rfl⟩⟩
    · exact ⟨_, h, .inr (.inr (.inr (.inl ⟨y, j, r, g, b, h1, h2, hi, rfl⟩)))⟩
  cases i with
  | construct n =>
    refine ⟨_, rfl, ?_⟩
    rcases construct_cases c n s with ⟨-, h⟩ | ⟨-, -, h⟩ | ⟨h1, h2, d, l, k, h⟩ |
      ⟨h1, h2, es, cs, hz, r, l, k, h3, h4, -, h⟩
    · exact .inl ⟨_, h⟩
    · exact .inl ⟨_, h⟩
    · exact .inr (.inl ⟨n, d, l, k, h1, h2, rfl, h⟩)
    · exact .inr (.inr (.inl ⟨n, es, cs, hz, r, l, k, h1, h2, h3, h4, rfl, h⟩))
  | setc j r g b => exact hset j r g b (.inl ⟨_, _, _, _, rfl⟩) rfl
  | setp j p => exact hset j _ _ _ (.inr ⟨_, _, rfl⟩) rfl
  | commit =>
    rcases commit_cases c s with ⟨-, h⟩ | ⟨y, h1, h⟩
    · exact ⟨_, h, .inl ⟨_, rfl⟩⟩
    · exact ⟨_, h, .inr (.inr (.inr (.inr (.inl ⟨y, h1, rfl, rfl⟩))))⟩
  | release =>
    rcases execRelease_cases s with ⟨-, h⟩ | ⟨y, h1, h⟩
    · exact ⟨_, h, .inl ⟨_, rfl⟩⟩
    · exact ⟨_, h, .inr (.inr (.inr (.inr (.inr (.inl ⟨y, h1, rfl, rfl⟩)))))⟩
  | zero => exact ⟨_, rfl, .inr (.inr (.inr (.inr (.inr (.inr ⟨.inl rfl, _, rfl⟩)))))⟩
  | one => exact ⟨_, rfl, .inr (.inr (.inr (.inr (.inr (.inr ⟨.inr rfl, _, rfl⟩)))))⟩

/-- The same of this hardware. -/
theorem exec_cases (i : Instr) (s : State) : ∃ t, exec i s = .next t ∧ ExecCases cfg i s t := by
  rw [exec_eq]
  exact execUnder_cases cfg i s

/-! ### What a step can be -/

/-- A symbol at the port drives its own levels, whether it is a row's code or not. -/
theorem symbol_step (c : Cfg) {s t u : State} {k : PulseCode} (h : s.nextMove = .run (.symbol k) u)
    (hs : stepUnder c s = .next t) : t = u.driveSymbol k := by
  obtain ⟨hok, herr⟩ := runMove_of_run (c := c) (dec := decodeUnder c) (run := execUnder c) h
  have next_of {i : Instr} {v : State} (hd : decodeUnder c (.symbol k) = .ok i) (he : execUnder c i u = .next v) :
      t = v := Host.Outcome.next.inj (hs.symm.trans ((hok i hd).trans he))
  by_cases hz : k = c.zero
  · exact next_of (i := .zero) (by simp [decodeUnder, decodeSymbol, hz]) (by rw [hz]; rfl)
  · by_cases ho : k = c.one
    · exact next_of (i := .one) (by simp only [decodeUnder, decodeSymbol, if_neg hz, if_pos ho]) (by rw [ho]; rfl)
    · have hd : decodeUnder c (.symbol k) = .error .noPulseRow := by
        simp only [decodeUnder, decodeSymbol, if_neg hz, if_neg ho]
      exact Host.Outcome.next.inj (hs.symm.trans (herr _ hd))

/-- Everything a step can be from s to t, by cases: a symbol drives the line, HOST's command runs, HOST's word is no command,
the DEVICE answers, HOST resets, nothing. -/
abbrev StepCases (c : Cfg) (s t : State) : Prop :=
  (∃ k rest, s.symbols = k :: rest ∧ t = ({ s with symbols := rest } : State).driveSymbol k) ∨
  (∃ w rest i, s.symbols = [] ∧ s.inFlight = none ∧ s.host = .command w :: rest ∧ decode (.command w) = .ok i ∧
    execUnder c i { s with host := rest } = .next t) ∨
  (∃ w rest, s.symbols = [] ∧ s.inFlight = none ∧ s.host = .command w :: rest ∧
    t = ({ s with host := rest } : State).finish .illegalCommand) ∨
  (∃ x a rest, s.symbols = [] ∧ s.phase = .usable x ∧ x.xfer ≠ none ∧ s.answers = a :: rest ∧
    t = answerTransfer c x a { s with answers := rest }) ∨
  (∃ rest, s.symbols = [] ∧ s.inFlight = none ∧ s.host = .reset :: rest ∧
    t = ({ s with host := rest } : State).resetBlock) ∨
  (s.symbols = [] ∧ t = s ∧ (s.inFlight = none → s.host = []) ∧ (s.inFlight ≠ none → s.answers = []))

/-- Under every configuration a step is one of the cases. -/
theorem stepUnder_cases {c : Cfg} {s t : State} (h : stepUnder c s = .next t) : StepCases c s t := by
  have hs := h
  unfold stepUnder at h
  rcases s.nextMove_cases with ⟨k, rest, h1, h2⟩ | ⟨x, a, rest, h0, h1, h2, h3⟩ | ⟨x, h0, h1, h2, h3⟩ |
    ⟨w, rest, h0, h1, h2, h3⟩ | ⟨rest, h0, h1, h2, h3⟩ | ⟨h0, h1, h2, h3⟩
  · exact .inl ⟨k, rest, h1, symbol_step c h2 hs⟩
  · rw [runMove_of_answer h3] at h
    obtain ⟨h4, h5⟩ := State.inFlight_eq_some.1 h1
    exact .inr (.inr (.inr (.inl ⟨x, a, rest, h0, h4, h5, h2, (Host.Outcome.next.inj h).symm⟩)))
  · rw [runMove_of_idle h3] at h
    exact .inr (.inr (.inr (.inr (.inr ⟨h0, (Host.Outcome.next.inj h).symm, by simp [h1], fun _ => h2⟩))))
  · obtain ⟨hok, herr⟩ := runMove_of_run (c := c) (dec := decodeUnder c) (run := execUnder c) h3
    cases hd : decode (.command w) with
    | ok i => exact .inr (.inl ⟨w, rest, i, h0, h1, h2, hd, (hok i hd).symm.trans h⟩)
    | error e =>
      exact .inr (.inr (.inl ⟨w, rest, h0, h1, h2, (Host.Outcome.next.inj ((herr e hd).symm.trans h)).symm⟩))
  · rw [runMove_of_reset h3] at h
    exact .inr (.inr (.inr (.inr (.inl ⟨rest, h0, h1, h2, (Host.Outcome.next.inj h).symm⟩))))
  · rw [runMove_of_idle h3] at h
    exact .inr (.inr (.inr (.inr (.inr ⟨h0, (Host.Outcome.next.inj h).symm, fun _ => h2, by simp [h1]⟩))))

/-- The same of this hardware; `exec_eq` turns its second case into exec. -/
theorem step_cases {s t : State} (h : step s = .next t) : StepCases cfg s t := stepUnder_cases (step_eq s ▸ h)

end Sys2Proof.Machine
end

