-- ==== Sys2Proof/Tests/Slice0.lean ====
section
/-! SUPPORT. The model's own tests, each about at most one step, with results from 95_test_vectors.md or from a worked
example of a rule; and for every obligation with hypotheses a witness that meets them. -/

namespace Sys2Proof.Tests

open Sys2Proof.Machine

/-! ### Small states -/

/-- A session of n LEDs with image m. -/
def session (n : Nat) (m : Memory) : Session := { ledCount := n, img := m, hwr := .drawn 0, xfer := none }

/-- A session of n LEDs, nothing set, whose transfer is in flight. -/
def sending (n : Nat) : Session :=
  { ledCount := n, img := [], hwr := .copied [], xfer := some { cmdLen := 0, dataLen := 9 * (n + 4) } }

/-- The state after reset with another phase and answers of the DEVICE to come. -/
def inPhase (p : Phase) (l : List Answer) : State := { State.reset with phase := p, answers := l }

/-- The state after reset with another phase and HOST's list. -/
def withHost (p : Phase) (l : List HostEvent) : State := { State.reset with phase := p, host := l }

/-- The image of the worked example of rule R84: LED 0 of one, red 40. -/
def redImage : Memory := Memory.writeBytes [] 9 [0x92, 0x49, 0x24, 0x93, 0x4D, 0x24, 0x92, 0x49, 0x24]

/-- What a test looks at after a step: the phase, the results, the bytes of IMG. -/
def seen (o : Host.Outcome State Fault Refusal) : Option (PhaseName × List Result × Option (List Byte)) :=
  match o with
  | .next t    => some (t.phase.name, t.results, (observe cfg t).img)
  | .fault _   => none
  | .refused _ => none

/-! ### Well-formedness: an ill-formed term for each check, and the largest well-formed one -/

theorem test_wellFormed_construct :
    (Instr.construct (2 ^ 32)).wellFormed = false ∧ (Instr.construct 0xFFFFFFFF).wellFormed = true := by decide

theorem test_wellFormed_setc :
    (Instr.setc (2 ^ 32) 0 0 0).wellFormed = false ∧ (Instr.setc 0xFFFFFFFF 255 255 255).wellFormed = true := by decide

theorem test_wellFormed_setp :
    (Instr.setp (2 ^ 32) 0).wellFormed = false ∧ (Instr.setp 0xFFFFFFFF 0xFFFFFF).wellFormed = true := by decide

/-! ### Decoding: words written out from rules R57 to R60 and R50 -/

/-- OP 0001, Z 0000, N = 60, C2, C1 and C0 zero. -/
theorem test_decode_construct :
    decode (.command 0b0001000000000000000000000000000000111100000000000000000000000000) = .ok (.construct 60) := by
  decide

/-- OP 0010, Z 0000, N = 59, C2 = 255, C1 = 128, C0 = 1. -/
theorem test_decode_setc :
    decode (.command 0b0010000000000000000000000000000000111011111111111000000000000001)
      = .ok (.setc 59 255 128 1) := by decide

/-- OP 0011, Z 0000, N = 7, packed = 0x123456. -/
theorem test_decode_setp :
    decode (.command 0b0011000000000000000000000000000000000111000100100011010001010110)
      = .ok (.setp 7 0x123456) := by decide

/-- OP 0100 and 0101, every other bit zero. -/
theorem test_decode_commit_release :
    decode (.command 0b0100000000000000000000000000000000000000000000000000000000000000) = .ok .commit ∧
    decode (.command 0b0101000000000000000000000000000000000000000000000000000000000000) = .ok .release := by decide

/-- The symbols of rule R50, and the table's rows as the host numbers their bits; a byte beyond a symbol is refused. -/
theorem test_decode_symbols :
    decode (.symbol 0b100) = .ok .zero ∧ decode (.symbol 0b110) = .ok .one ∧
    decode (.symbol 0b000) = .error .noPulseRow ∧
    decodeTableWord 8 0x4 = some .zero ∧ decodeTableWord 8 0x6 = some .one ∧ decodeTableWord 8 0xC = none ∧
    decodeTableWord 64 0x4000000000000000 = some .commit ∧ decodeTableWord 64 0x4000000000000001 = none := by decide

/-- The illegal words of 95_test_vectors.md section 2. -/
theorem test_decode_illegal :
    ([0x0000000000000000, 0x6000000000000000, 0xF000000000000000, 0x2100000000010101, 0x1000000002000001,
      0x4000000000000001, 0x4000000001000000, 0x5000000000000100] : List CommandWord).all
      (fun w => decode (.command w) == .error .illegalCommand) = true := by decide

/-- The other way, from the same table. -/
theorem test_encode :
    encode (.construct 0xFFFFFFFF) = .command 0x10FFFFFFFF000000 ∧ encode (.setc 0 40 0 0) = .command 0x2000000000280000 ∧
    encode (.setp 7 0x123456) = .command 0x3000000007123456 ∧ encode .release = .command 0x5000000000000000 := by decide

/-! ### The Pulse Encoder (95_test_vectors.md section 3) -/

theorem test_enc_asymmetric : enc cfg 1 = 0x924926 ∧ enc cfg 128 = 0xD24924 := by decide

theorem test_enc_bytes : be3 (enc cfg 40) = [0x93, 0x4D, 0x24] ∧ be3 (enc cfg 85) = [0x9A, 0x69, 0xA6] := by decide

/-- A row of 95_test_vectors.md section 4: green, red, blue in memory, for operands red, green, blue. -/
theorem test_slot_order :
    slotData cfg 128 64 32 = [0x9A, 0x49, 0x24, 0xD2, 0x49, 0x24, 0x93, 0x49, 0x24] := by decide

/-- Another configuration (95_test_vectors.md section 4): the store uses LEAD_OFFSET and not the literal 1. -/
theorem test_slot_base_other :
    slotBase { reference 64 with leadOffset := 2, trailZeroCount := 1 } 0 = 18 ∧
    bufLen { reference 64 with leadOffset := 2, trailZeroCount := 1 } 1 = 36 := by decide

/-! ### The commands -/

/-- CONSTRUCT 60 with a 64-bit platform word (95_test_vectors.md section 5). -/
theorem test_construct_ok :
    let t := construct (reference 64) 60 (inPhase .unbuilt [.ok, .ok, .ok])
    t.phase.name = .usable ∧ t.results = [.ok] ∧ t.clk = 3000000 ∧
    t.out = [.openDevice Config.devicePath, .setClock 3000000, .mapBuffer 576] := ⟨rfl, rfl, rfl, rfl⟩

/-- CONSTRUCT whose clock is refused (program P5): ConfigurationError, RELEASED, the mapping never asked. -/
theorem test_construct_clock :
    let t := construct (reference 64) 1 (inPhase .unbuilt [.ok, .fail, .ok])
    t.phase = .released ∧ t.results = [.configurationError] ∧ t.answers = [.ok] := by
  have h : construct (reference 64) 1 (inPhase .unbuilt [.ok, .fail, .ok]) =
      ((({ inPhase .unbuilt [.ok] with out := [.openDevice Config.devicePath, .setClock 3000000] } : State).loseClk).abandon).raise
        .configurationError := rfl
  obtain ⟨es, -, he⟩ := State.abandon_cases
    (({ inPhase .unbuilt [.ok] with out := [.openDevice Config.devicePath, .setClock 3000000] } : State).loseClk)
  rw [h, he]
  exact ⟨rfl, rfl, rfl⟩

/-- The worked example of rule R84. -/
theorem test_setc_example :
    seen (exec (.setc 0 40 0 0) (inPhase (.usable (session 1 [])) [])) =
      some (.usable, [.ok], some (List.replicate 9 0 ++ [0x92, 0x49, 0x24, 0x93, 0x4D, 0x24, 0x92, 0x49, 0x24] ++
        List.replicate 27 0)) := by decide

/-- 95_test_vectors.md section 4: index LED_COUNT is InvalidIndex. -/
theorem test_setc_index :
    seen (exec (.setc 1 9 9 9) (inPhase (.usable (session 1 [])) [])) =
      some (.usable, [.invalidIndex], some (List.replicate 45 0)) := by decide

/-- Program P2, command 6: every byte of the slot is overwritten, from the packed colour 0x0000FF. -/
theorem test_setp_overwrites :
    seen (exec (.setp 0 0x0000FF) (inPhase (.usable (session 1 redImage)) [])) =
      some (.usable, [.ok], some (List.replicate 9 0 ++ [0x92, 0x49, 0x24, 0x92, 0x49, 0x24, 0xDB, 0x6D, 0xB6] ++
        List.replicate 27 0)) := by decide

/-- The worked example of rule R87: the Transfer event. -/
theorem test_commit_event :
    (match exec .commit (inPhase (.usable (session 1 redImage)) []) with
      | .next t    => t.out
      | .fault _   => []
      | .refused _ => []) =
    [.transfer { cmdLen := 0, dataLen := 45 } (List.replicate 9 0 ++
      [0x92, 0x49, 0x24, 0x93, 0x4D, 0x24, 0x92, 0x49, 0x24] ++ List.replicate 27 0)] := by decide

/-- The first symbols of LED 0's red channel on the line (95_test_vectors.md section 6): bits 96 to 107 of the frame. -/
theorem test_frame_bits :
    ((frameBits (Memory.readBytes redImage 0 45)).drop 96).take 12 =
      [true, false, false, true, false, false, true, true, false, true, false, false] := by decide

/-- Program P4, commands 15 and 16. -/
theorem test_release :
    seen (exec .release (inPhase (.usable (session 1 [])) [])) = some (.released, [.ok], none) ∧
    seen (exec .release (inPhase .released [])) = some (.released, [.notUsable], none) := by decide

/-- Program P4, command 6: the all-zero word. -/
theorem test_illegal_step :
    seen (step (withHost .unbuilt [.command 0])) = some (.unbuilt, [.illegalCommand], none) := by decide

/-- Rule R104: ONE is high for two periods and low for one, ZERO high for one and low for two. -/
theorem test_symbol_levels : symbolLevels 0b110 = [true, true, false] ∧ symbolLevels 0b100 = [true, false, false] := by
  decide

/-- A placed word is what the very next step runs: RELEASE in UNBUILT is NotUsable (rule R92); ONE drives the line. -/
theorem test_withFetchWord :
    seen (step (State.reset.withFetchWord 64 0x5000000000000000)) = some (.unbuilt, [.notUsable], none) ∧
    (match step (State.reset.withFetchWord 8 0x6) with
      | .next t    => t.wire
      | .fault _   => []
      | .refused _ => []) = [[true, true, false]] := by decide

/-! ### Witnesses: for each obligation with hypotheses, states and operands that meet them -/

/-- One LED fits a platform word (log entry 5). -/
theorem one_fits : 9 * (1 + 4) < 2 ^ cfg.wordW := (ledCountOk_small (n := 1) (by decide) (by decide)).2

theorem witness_DecodeOfEncodeIsInstr :
    (Instr.construct 0xFFFFFFFF).WellFormed ∧ (Instr.setc 0xFFFFFFFF 255 0 255).WellFormed ∧ Instr.commit.WellFormed := by
  decide

theorem witness_EncodeOfDecodeIsCode :
    decode (.command 0x20FFFFFFFFFFFFFF) = .ok (.setc 0xFFFFFFFF 255 255 255) ∧ decode (.symbol 0b110) = .ok .one := by
  decide

theorem witness_EncGroupsDecode : cfg.Valid ∧ 0 < 8 ∧ 7 < 8 := by decide

theorem witness_EncKeepsOrderAndBitwise : (254 : Byte) < 255 := by decide

theorem witness_StepRunsDecodedCode :
    (withHost .unbuilt [.command 0x4000000000000000]).symbols = [] ∧
    (withHost .unbuilt [.command 0x4000000000000000]).inFlight = none ∧
    decode (.command 0x4000000000000000) = .ok .commit ∧
    ({ State.reset with symbols := [0b100] } : State).symbols = [0b100] ∧ decode (.symbol 0b100) = .ok .zero :=
  ⟨rfl, rfl, by decide, rfl, by decide⟩

theorem witness_IllegalWordOnlyReports :
    (withHost .unbuilt [.command 0x2100000000010101]).symbols = [] ∧
    (withHost .unbuilt [.command 0x2100000000010101]).inFlight = none ∧
    (0x2100000000010101#64) &&& 0xFF00000000FFFFFF#64 ≠ 0x1000000000000000#64 ∧
    (0x2100000000010101#64) &&& 0xFF00000000000000#64 ≠ 0x2000000000000000#64 ∧
    (0x2100000000010101#64) &&& 0xFF00000000000000#64 ≠ 0x3000000000000000#64 ∧
    (0x2100000000010101#64) &&& 0xFFFFFFFFFFFFFFFF#64 ≠ 0x4000000000000000#64 ∧
    (0x2100000000010101#64) &&& 0xFFFFFFFFFFFFFFFF#64 ≠ 0x5000000000000000#64 :=
  ⟨rfl, rfl, by decide, by decide, by decide, by decide, by decide⟩

theorem witness_UnansweredTransferWaits :
    (inPhase (.usable (sending 1)) []).symbols = [] ∧ (sending 1).xfer = some { cmdLen := 0, dataLen := 45 } ∧
    (inPhase (.usable (sending 1)) []).answers = [] := ⟨rfl, rfl, rfl⟩

theorem witness_IdleHostLeavesState :
    State.reset.symbols = [] ∧ State.reset.inFlight = none ∧ State.reset.host = [] := ⟨rfl, rfl, rfl⟩

theorem witness_ResetEventClearsBlock :
    (withHost (.usable (session 1 redImage)) [.reset]).symbols = [] ∧
    (withHost (.usable (session 1 redImage)) [.reset]).inFlight = none ∧
    (withHost (.usable (session 1 redImage)) [.reset]).host = [.reset] := ⟨rfl, rfl, rfl⟩

theorem witness_ConstructOpensSession :
    (inPhase .unbuilt [.ok, .ok, .ok]).phase = .unbuilt ∧ 1 ≤ 1 ∧ 9 * (1 + 4) < 2 ^ cfg.wordW ∧
    (inPhase .unbuilt [.ok, .ok, .ok]).answers = .ok :: .ok :: .ok :: [] := ⟨rfl, le_refl 1, one_fits, rfl⟩

theorem witness_RefusedConstructIsFatal :
    (∀ l, (inPhase .unbuilt l).phase = .unbuilt) ∧ 1 ≤ 1 ∧ 9 * (1 + 4) < 2 ^ cfg.wordW ∧
    (inPhase .unbuilt [.fail]).answers = .fail :: [] ∧
    (inPhase .unbuilt [.ok, .fail]).answers = .ok :: .fail :: [] ∧
    (inPhase .unbuilt [.ok, .ok, .fail]).answers = .ok :: .ok :: .fail :: [] :=
  ⟨fun _ => rfl, le_refl 1, one_fits, rfl, rfl, rfl⟩

theorem witness_BadLedCountOnlyReports :
    State.reset.phase = .unbuilt ∧ ((0 : Nat) = 0 ∨ 2 ^ cfg.wordW ≤ 9 * (0 + 1 + 3)) ∧
    ((2 ^ cfg.wordW = 0) ∨ 2 ^ cfg.wordW ≤ 9 * (2 ^ cfg.wordW + 1 + 3)) := ⟨rfl, .inl rfl, .inr (by omega)⟩

theorem witness_LedCountBounds : (0xFFFFFFFF : Nat) < 2 ^ 32 := by decide

theorem witness_SetcWritesItsSlot :
    (0x20FFFFFFFFFFFFFF#64) &&& 0xFF00000000000000#64 = 0x2000000000000000#64 ∧
    (∀ x, (inPhase .unbuilt []).phase ≠ .usable x) ∧ (∀ x, (inPhase .released []).phase ≠ .usable x) ∧
    (inPhase (.usable (session 2 [])) []).phase = .usable (session 2 []) ∧ (session 2 []).ledCount ≤ 2 ∧
    1 < (session 2 []).ledCount := ⟨by decide, by simp [inPhase], by simp [inPhase], rfl, by decide, by decide⟩

theorem witness_SetpWritesItsSlot :
    (inPhase (.usable (session 1 redImage)) []).phase = .usable (session 1 redImage) ∧
    0 < (session 1 redImage).ledCount := ⟨rfl, by decide⟩

theorem witness_BadIndexOnlyReports :
    (inPhase (.usable (session 1 [])) []).phase = .usable (session 1 []) ∧ (session 1 []).ledCount ≤ 1 := ⟨rfl, by decide⟩

theorem witness_SetcsCommuteAndOverwrite :
    (inPhase (.usable (session 2 redImage)) []).phase = .usable (session 2 redImage) ∧
    Memory.wf (session 2 redImage).img = true ∧ 0 < (session 2 redImage).ledCount ∧ 1 < (session 2 redImage).ledCount ∧
    (0 : Nat) ≠ 1 ∧ (1 : Nat) = 1 := ⟨rfl, by decide, by decide, by decide, by decide, rfl⟩

theorem witness_FreshBufferHoldsOneSlot :
    (inPhase .unbuilt [.ok, .ok, .ok]).phase = .unbuilt ∧ 1 ≤ 1 ∧ 9 * (1 + 4) < 2 ^ cfg.wordW ∧
    (inPhase .unbuilt [.ok, .ok, .ok]).answers = .ok :: .ok :: .ok :: [] ∧ 0 < 1 :=
  ⟨rfl, le_refl 1, one_fits, rfl, by decide⟩

theorem witness_CommitPublishesImage :
    (inPhase (.usable (session 1 redImage)) []).phase = .usable (session 1 redImage) := rfl

theorem witness_AnswerEndsCommit :
    (inPhase (.usable (sending 1)) [.ok]).symbols = [] ∧
    (inPhase (.usable (sending 1)) [.ok]).phase = .usable (sending 1) ∧
    (sending 1).xfer = some { cmdLen := 0, dataLen := 45 } ∧
    (inPhase (.usable (sending 1)) [.ok]).answers = .ok :: [] ∧
    (inPhase (.usable (sending 1)) [.fail]).answers = .fail :: [] := ⟨rfl, rfl, rfl, rfl, rfl⟩

theorem witness_FailedCommitKeepsImage :
    cfg.wireMsbFirst = true ∧ (inPhase (.usable (session 1 redImage)) [.fail]).symbols = [] ∧
    (inPhase (.usable (session 1 redImage)) [.fail]).phase = .usable (session 1 redImage) ∧
    (inPhase (.usable (session 1 redImage)) [.fail]).answers = .fail :: [] := ⟨rfl, rfl, rfl, rfl⟩

theorem witness_CommitTwiceSendsTheSame :
    (inPhase (.usable (session 1 redImage)) [.fail, .ok]).symbols = [] ∧
    (inPhase (.usable (session 1 redImage)) [.fail, .ok]).phase = .usable (session 1 redImage) ∧
    (inPhase (.usable (session 1 redImage)) [.fail, .ok]).answers = .fail :: [.ok] := ⟨rfl, rfl, rfl⟩

theorem witness_EndToEndScenario :
    (inPhase .unbuilt [.ok, .ok, .ok, .ok]).phase = .unbuilt ∧
    (inPhase .unbuilt [.ok, .ok, .ok, .ok]).answers = .ok :: .ok :: .ok :: [.ok] := ⟨rfl, rfl⟩

theorem witness_OkTransferShiftsTheFrame :
    cfg.wireMsbFirst = true ∧ (inPhase (.usable (sending 1)) [.ok]).symbols = [] ∧
    (inPhase (.usable (sending 1)) [.ok]).phase = .usable (sending 1) ∧
    (sending 1).xfer = some { cmdLen := 0, dataLen := 45 } ∧ (sending 1).hwr = .copied (sending 1).img ∧
    (inPhase (.usable (sending 1)) [.ok]).answers = .ok :: [] := ⟨rfl, rfl, rfl, rfl, rfl, rfl⟩

/-- A fresh session of one LED meets the invariant. -/
theorem session_inv : (session 1 []).Inv cfg where
  ledCountOk := ledCountOk_small (by decide) (by decide)
  canonical  := Memory.wf_nil
  inside     := by simp [session]
  padding    := fun _ _ => rfl
  slots      := fun _ _ => .inl rfl
  inFlight   := by simp [session]

/-- A state in USABLE that meets the machine's invariant. -/
theorem usable_inv (l : List Answer) : (inPhase (.usable (session 1 [])) l).Inv cfg where
  session := by
    intro x hx
    cases hx
    exact session_inv
  events := by simp [inPhase, State.reset]

theorem witness_FrameHoldsOnlyThreeSymbols :
    (inPhase (.usable (session 1 [])) []).Inv cfg ∧
    (inPhase (.usable (session 1 [])) []).phase = .usable (session 1 []) ∧ (23 : Nat) < 24 ∧ 24 * (1 + 1) ≤ 48 :=
  ⟨usable_inv [], rfl, by decide, by decide⟩

theorem witness_ReleaseEndsSession :
    (inPhase (.usable (session 1 [])) []).phase = .usable (session 1 []) ∧
    (∀ x, (inPhase .unbuilt []).phase ≠ .usable x) := ⟨rfl, by simp [inPhase]⟩

theorem witness_WrongPhaseOnlyReports :
    (inPhase .released []).phase ≠ .unbuilt ∧ (inPhase (.usable (session 1 [])) []).phase ≠ .unbuilt ∧
    (∀ x, (inPhase .unbuilt []).phase ≠ .usable x) ∧ (∀ x, (inPhase .released []).phase ≠ .usable x) := by
  simp [inPhase]

theorem witness_SlotWaveformIsGrbSymbols :
    cfg.wireMsbFirst = true ∧ { reference 64 with one := 0b111 }.wireMsbFirst = true := ⟨rfl, rfl⟩

/-- Another configuration: no lead padding, one trail slot, other codes. -/
def other : Cfg := { reference 64 with one := 0b111, zero := 0b001, leadOffset := 0, trailZeroCount := 1 }

/-- Its symbols are its own, and the slot of LED 1 of two is the buffer's second. -/
theorem test_other_configuration :
    decodeUnder other (.symbol 0b111) = .ok .one ∧ decodeUnder other (.symbol 0b110) = .error .noPulseRow ∧
    bufLen other 2 = 27 ∧ slotBase other 1 = 9 := by decide

theorem witness_ConstructUnderEveryConfiguration :
    (inPhase .unbuilt [.ok, .ok, .ok]).phase = .unbuilt ∧ LedCountOk other 1 ∧
    (inPhase .unbuilt [.ok, .ok, .ok]).answers = .ok :: .ok :: .ok :: [] := ⟨rfl, by decide, rfl⟩

theorem witness_SettersUnderEveryConfiguration :
    (inPhase (.usable (session 2 [])) []).phase = .usable (session 2 []) ∧ 1 < (session 2 []).ledCount := ⟨rfl, by decide⟩

theorem witness_CommitUnderEveryConfiguration :
    (inPhase (.usable (session 1 redImage)) [.ok]).symbols = [] ∧
    (inPhase (.usable (session 1 redImage)) [.ok]).phase = .usable (session 1 redImage) ∧
    (inPhase (.usable (session 1 redImage)) [.ok]).answers = .ok :: [] := ⟨rfl, rfl, rfl⟩

/-- The reset state meets the invariant of the other configuration, and its step there is idle. -/
theorem witness_StepKeepsInvariant_other :
    State.reset.Inv other ∧ stepUnder other State.reset = .next State.reset :=
  ⟨⟨by simp [State.reset], by simp [State.reset]⟩, rfl⟩

theorem witness_StepKeepsInvariant :
    (inPhase (.usable (session 1 [])) []).Inv cfg ∧
    step (inPhase (.usable (session 1 [])) []) = .next (inPhase (.usable (session 1 [])) []) := ⟨usable_inv [], rfl⟩

theorem witness_OnlyResetLeavesReleased :
    (withHost .released [.command 0]).phase = .released ∧ (∀ rest, (withHost .released [.command 0]).host ≠ .reset :: rest) ∧
    step (withHost .released [.command 0]) = .next ((withHost .released []).finish .illegalCommand) :=
  ⟨rfl, by simp [withHost], rfl⟩

theorem witness_OnlyCommitTransfers : Instr.release ≠ .commit := by decide

theorem witness_OnlySettersWriteImage :
    (withHost (.usable (session 1 redImage)) [.command 0]).phase = .usable (session 1 redImage) ∧
    step (withHost (.usable (session 1 redImage)) [.command 0]) =
      .next ((withHost (.usable (session 1 redImage)) []).finish .illegalCommand) ∧
    ((withHost (.usable (session 1 redImage)) []).finish .illegalCommand).phase = .usable (session 1 redImage) :=
  ⟨rfl, rfl, rfl⟩

theorem witness_OnlyConstructSetsClock : ∀ n, Instr.commit ≠ .construct n := by simp

theorem witness_ShifterPortOnlyDrains :
    step { State.reset with symbols := [0b000, 0b110] } =
      .next (({ State.reset with symbols := [0b110] } : State).driveSymbol 0b000) := rfl

end Sys2Proof.Tests
end

section
/-! PROOFS. The state (10_state.md): what every step keeps (rules R24, R25), and which instruction writes which part of it
(rules R13, R15, R16, R18, R20). -/

namespace Sys2Proof.Machine

variable {c : Cfg} {i : Instr} {s t : State}

/-- An instruction that answers t answers it by one of the cases. -/
theorem execCases_of_execUnder (h : execUnder c i s = .next t) : ExecCases c i s t := by
  obtain ⟨u, hu, hc⟩ := execUnder_cases c i s
  exact Host.Outcome.next.inj (hu.symm.trans h) ▸ hc

/-! ### The events of a CONSTRUCT -/

/-- A failed CONSTRUCT emits some of the events of one that succeeds, and perhaps Close (rule R83). -/
theorem mem_refusedEvents {n : Nat} {es cs : List Event} {e : Event} (hes : es <+: openEvents c n)
    (hcs : CloseOrNone cs) (he : e ∈ es ++ cs) : e ∈ openEvents c n ∨ e = .close := by
  rcases List.mem_append.1 he with he | he
  · exact .inl (hes.subset he)
  · rcases hcs with rfl | rfl
    · simp at he
    · exact .inr (List.mem_singleton.1 he)

theorem transfer_not_mem_openEvents {n : Nat} (d : Xfer) (p : List Byte) : Event.transfer d p ∉ openEvents c n := by
  simp [openEvents]

theorem openEvents_ok {n : Nat} (h : LedCountOk c n) : ∀ e ∈ openEvents c n, e.Ok c := by
  simp [openEvents, Event.Ok, h.2]

/-! ### The session's invariant, operation by operation -/

theorem Memory.readBytes_congr {m m' : Memory} {base n : Nat}
    (h : ∀ k, base ≤ k → k < base + n → Memory.read m k = Memory.read m' k) :
    Memory.readBytes m base n = Memory.readBytes m' base n :=
  List.map_congr_left fun j hj => h _ (by omega) (by have := List.mem_range.1 hj; omega)

/-- The slots of two LEDs share no byte (rule R93 b). -/
theorem not_inSlot_of_ne {j l k : Nat} (h : j ≠ l) (hk : InSlot c l k) : ¬ InSlot c j k := by
  simp only [InSlot, slotBase, slotBytes] at hk ⊢
  omega

/-- An LED's slot lies outside the padding (rule R31). -/
theorem not_inSlot_of_padding {j n k : Nat} (hj : j < n) (hk : InLead c k ∨ InTrail c n k) : ¬ InSlot c j k := by
  simp only [InLead, InTrail, InSlot, slotBase, slotBytes] at hk ⊢
  omega

/-- A slot reads back as the bytes stored in it. -/
theorem readBytes_stored_slot (m : Memory) (c : Cfg) (j : Nat) (r g b : Byte) :
    Memory.readBytes (Memory.writeBytes m (slotBase c j) (slotData c r g b)) (slotBase c j) slotBytes =
      slotData c r g b := by
  refine List.ext_getElem (by simp [slotBytes]) fun k hk hk' => ?_
  have hk9 : k < slotBytes := by simpa using hk
  rw [Memory.getElem_readBytes _ _ _ _ hk9, Memory.read_store_slot, if_pos (by simp only [InSlot]; omega),
    Nat.add_sub_cancel_left, List.getD_eq_getElem _ _ hk']

/-- The store of a slot keeps every slot unset or coloured (I-slot, rule R24). -/
theorem SlotOk.store {m : Memory} {l : Nat} (j : Nat) (r g b : Byte) (h : SlotOk c m l) :
    SlotOk c (Memory.writeBytes m (slotBase c j) (slotData c r g b)) l := by
  by_cases hjl : j = l
  · exact .inr ⟨r, g, b, hjl ▸ readBytes_stored_slot m c j r g b⟩
  · have hsame : Memory.readBytes (Memory.writeBytes m (slotBase c j) (slotData c r g b)) (slotBase c l) slotBytes =
        Memory.readBytes m (slotBase c l) slotBytes :=
      Memory.readBytes_congr fun k hlo hhi => by
        rw [Memory.read_store_slot, if_neg (not_inSlot_of_ne hjl ⟨hlo, hhi⟩)]
    unfold SlotOk
    rwa [hsame]

/-- The session a CONSTRUCT opens (rule R81). -/
theorem Session.Inv.fresh {n : Nat} (h : LedCountOk c n) (hwr : Hwr) :
    Session.Inv c { ledCount := n, img := [], hwr := hwr, xfer := none } where
  ledCountOk := h
  canonical  := Memory.wf_nil
  inside     := by simp
  padding    := fun k _ => Memory.read_nil k
  slots      := fun l _ => .inl (by simp [Memory.readBytes, List.map_const'])
  inFlight   := by simp

variable {x : Session}

/-- The slot write (rule R84). With a transfer in flight IMG and HWR would part, but then no command runs. -/
theorem Session.Inv.store (h : x.Inv c) (hx : x.xfer = none) {j : Nat} (hj : j < x.ledCount) (r g b : Byte) :
    Session.Inv c { x with img := Memory.writeBytes x.img (slotBase c j) (slotData c r g b) } where
  ledCountOk := h.ledCountOk
  canonical  := Memory.wf_writeBytes _ _ h.canonical
  inside     := fun e he => by
    rcases Memory.mem_writeBytes _ he with ⟨-, hhi⟩ | he
    · obtain ⟨hslot, hpad⟩ := slot_inside c hj
      exact (hhi.trans_le hslot).trans_le hpad
    · exact h.inside e he
  padding    := fun k hk => by
    rw [Memory.read_store_slot, if_neg (not_inSlot_of_padding hj hk)]
    exact h.padding k hk
  slots      := fun l hl => (h.slots l hl).store j r g b
  inFlight   := by simp [hx]

/-- COMMIT's first step (rule R87). -/
theorem Session.Inv.publish (h : x.Inv c) : (x.publish c).Inv c :=
  { h with inFlight := by rintro d ⟨⟩; exact ⟨rfl, rfl⟩ }

/-- The DEVICE's answer (rule R87, step 2). -/
theorem Session.Inv.overwrite (h : x.Inv c) (n : Nat) : (x.overwrite n).Inv c :=
  { h with inFlight := by rintro d ⟨⟩ }

/-! ### The machine's invariant -/

/-- The invariant speaks of the phase and of OUT alone. -/
theorem State.Inv.congr (h : s.Inv c) (hp : t.phase = s.phase) (ho : t.out = s.out) : t.Inv c :=
  ⟨hp ▸ h.session, ho ▸ h.events⟩

/-- A state with a good session or none, and with good events added to OUT. -/
theorem State.Inv.extend (h : s.Inv c) {es : List Event} (ho : t.out = s.out ++ es)
    (hp : ∀ x, t.phase = .usable x → x.Inv c) (he : ∀ e ∈ es, e.Ok c) : t.Inv c :=
  ⟨hp, fun e h' => (List.mem_append.1 (ho ▸ h')).elim (h.events e) (he e)⟩

/-- The payload of COMMIT's Transfer is as long as its descriptor says, and admitted lengths fit a word (rule R19). -/
theorem Session.Inv.transfer_ok (h : x.Inv c) :
    (Event.transfer { cmdLen := 0, dataLen := x.bufLen c } (Memory.readBytes x.img 0 (x.bufLen c))).Ok c :=
  ⟨rfl, Memory.length_readBytes _ _ _, h.ledCountOk.2⟩

theorem xfer_eq_none_of_not_inFlight (hf : s.inFlight = none) (hp : s.phase = .usable x) : x.xfer = none := by
  by_contra hx
  simp [State.inFlight_eq_some.2 ⟨hp, hx⟩] at hf

/-- With no transfer in flight every instruction keeps the invariant. -/
theorem execUnder_keeps_inv (h : s.Inv c) (hf : s.inFlight = none) (he : execUnder c i s = .next t) : t.Inv c := by
  rcases execCases_of_execUnder he with ⟨r, rfl⟩ | ⟨n, d, l, k, -, hn, -, rfl⟩ |
    ⟨n, es, cs, hz, r, l, k, -, hn, hes, hcs, -, rfl⟩ | ⟨x, j, r, g, b, hp, hj, -, rfl⟩ | ⟨x, hp, -, rfl⟩ |
    ⟨x, hp, -, rfl⟩ | ⟨-, k, rfl⟩
  · -- only a result
    exact h.congr rfl rfl
  · -- CONSTRUCT opens a session
    refine h.extend rfl ?_ (openEvents_ok hn)
    rintro x ⟨⟩
    exact .fresh hn _
  · -- CONSTRUCT fails fatally
    refine h.extend rfl (by rintro x ⟨⟩) fun e he => ?_
    rcases mem_refusedEvents hes hcs he with he | rfl
    · exact openEvents_ok hn e he
    · trivial
  · -- a setter stores
    refine ⟨?_, h.events⟩
    rintro y ⟨⟩
    exact (h.session x hp).store (xfer_eq_none_of_not_inFlight hf hp) hj r g b
  · -- COMMIT publishes
    refine h.extend rfl ?_ (by simpa using (h.session x hp).transfer_ok)
    rintro y ⟨⟩
    exact (h.session x hp).publish
  · -- RELEASE ends
    exact h.extend rfl (by rintro y ⟨⟩) (by simp [Event.Ok])
  · -- a symbol drives the line
    exact h.congr rfl rfl

/-- Under every configuration every step keeps the invariant. -/
theorem stepUnder_keeps_inv (h : s.Inv c) (hs : stepUnder c s = .next t) : t.Inv c := by
  rcases stepUnder_cases hs with ⟨k, rest, -, rfl⟩ | ⟨w, rest, i, -, hf, -, -, he⟩ | ⟨w, rest, -, -, -, rfl⟩ |
    ⟨x, a, rest, -, hp, -, -, rfl⟩ | ⟨rest, -, -, -, rfl⟩ | ⟨-, rfl, -, -⟩
  · -- a symbol drives the line
    exact h.congr rfl rfl
  · -- HOST's command runs
    exact execUnder_keeps_inv (h.congr (t := { s with host := rest }) rfl rfl) hf he
  · -- HOST's word is no command
    exact h.congr rfl rfl
  · -- the DEVICE answers
    refine ⟨?_, h.events⟩
    rintro y ⟨⟩
    exact (h.session x hp).overwrite _
  · -- HOST resets
    exact ⟨by rintro y ⟨⟩, by simp [State.resetBlock_eq]⟩
  · -- nothing
    exact h

/-! ### What an instruction writes -/

/-- OUT only grows, and by a Transfer only under COMMIT. -/
theorem ExecCases.out_grows (h : ExecCases c i s t) :
    ∃ es, t.out = s.out ++ es ∧ (i ≠ .commit → ∀ d p, Event.transfer d p ∉ es) := by
  rcases h with ⟨r, rfl⟩ | ⟨n, d, l, k, -, -, -, rfl⟩ | ⟨n, es, cs, hz, r, l, k, -, -, hes, hcs, -, rfl⟩ |
    ⟨x, j, r, g, b, -, -, -, rfl⟩ | ⟨x, -, hi, rfl⟩ | ⟨x, -, -, rfl⟩ | ⟨-, k, rfl⟩
  · exact ⟨[], by simp⟩
  · exact ⟨_, rfl, fun _ => transfer_not_mem_openEvents⟩
  · refine ⟨_, rfl, fun _ d p hd => ?_⟩
    rcases mem_refusedEvents hes hcs hd with hd | hd
    · exact transfer_not_mem_openEvents d p hd
    · cases hd
  · exact ⟨[], by simp⟩
  · exact ⟨_, rfl, fun hne => absurd hi hne⟩
  · exact ⟨_, rfl, by simp⟩
  · exact ⟨[], by simp⟩

/-- CLK is CONSTRUCT's alone. -/
theorem ExecCases.clk_eq (h : ExecCases c i s t) (hi : ∀ n, i ≠ .construct n) : t.clk = s.clk := by
  rcases h with ⟨r, rfl⟩ | ⟨n, d, l, k, -, -, hc, rfl⟩ | ⟨n, es, cs, hz, r, l, k, -, -, -, -, hc, rfl⟩ |
    ⟨x, j, r, g, b, -, -, -, rfl⟩ | ⟨x, -, -, rfl⟩ | ⟨x, -, -, rfl⟩ | ⟨-, k, rfl⟩
  · rfl
  · exact absurd hc (hi n)
  · exact absurd hc (hi n)
  · rfl
  · rfl
  · rfl
  · rfl

/-- No instruction leaves RELEASED or emits an event there (rule R132). -/
theorem ExecCases.of_released (h : ExecCases c i s t) (hp : s.phase = .released) :
    t.phase = .released ∧ t.out = s.out := by
  rcases h with ⟨r, rfl⟩ | ⟨n, d, l, k, hp', -⟩ | ⟨n, es, cs, hz, r, l, k, hp', -⟩ | ⟨x, j, r, g, b, hp', -⟩ |
    ⟨x, hp', -⟩ | ⟨x, hp', -⟩ | ⟨-, k, rfl⟩
  · exact ⟨hp, rfl⟩
  · cases hp.symm.trans hp'
  · cases hp.symm.trans hp'
  · cases hp.symm.trans hp'
  · cases hp.symm.trans hp'
  · cases hp.symm.trans hp'
  · exact ⟨hp, rfl⟩

/-- A session whose phase stays is the same session. -/
theorem session_eq_of_phase_eq {y : Session} (hs : s.phase = .usable x) (ht : t.phase = .usable y)
    (hp : t.phase = s.phase) : y = x :=
  Phase.usable.inj (ht.symm.trans (hp.trans hs))

/-- An instruction that stays in a session keeps LED_COUNT, and IMG if it is no setter. -/
theorem ExecCases.of_usable {y : Session} (h : ExecCases c i s t) (hs : s.phase = .usable x)
    (ht : t.phase = .usable y) : y.ledCount = x.ledCount ∧ (y.img = x.img ∨ Instr.IsSetter i) := by
  have stays (hp : t.phase = s.phase) : y.ledCount = x.ledCount ∧ (y.img = x.img ∨ Instr.IsSetter i) := by
    simp [session_eq_of_phase_eq hs ht hp]
  rcases h with ⟨r, rfl⟩ | ⟨n, d, l, k, hp, -⟩ | ⟨n, es, cs, hz, r, l, k, hp, -⟩ | ⟨z, j, r, g, b, hp, -, hi, rfl⟩ |
    ⟨z, hp, -, rfl⟩ | ⟨z, -, -, rfl⟩ | ⟨-, k, rfl⟩
  · exact stays rfl
  · cases hs.symm.trans hp
  · cases hs.symm.trans hp
  · cases hs.symm.trans hp
    cases ht
    exact ⟨rfl, .inr hi⟩
  · cases hs.symm.trans hp
    cases ht
    exact ⟨rfl, .inl rfl⟩
  · cases ht
  · exact stays rfl

end Sys2Proof.Machine

/-! ### The obligations -/

namespace Sys2Proof.Proofs

open Sys2Proof.Machine

/-- Settles O44: each operation keeps the session's invariant, and every step is one of the cases of `stepUnder_cases`. -/
theorem stepKeepsInvariant : Obligations.StepKeepsInvariant :=
  ⟨fun s _ h hs => stepUnder_keeps_inv h (step_eq s ▸ hs), fun _ _ _ => stepUnder_keeps_inv⟩

/-- Settles O48: of the cases of a step only the reset event's leaves RELEASED. -/
theorem onlyResetLeavesReleased : Obligations.OnlyResetLeavesReleased := by
  intro s t hp hr hs
  rcases step_cases hs with ⟨k, rest, -, rfl⟩ | ⟨w, rest, i, -, -, -, -, he⟩ | ⟨w, rest, -, -, -, rfl⟩ |
    ⟨x, a, rest, -, hp', -⟩ | ⟨rest, -, -, hh, -⟩ | ⟨-, rfl, -, -⟩
  · exact ⟨hp, rfl⟩
  · exact (execCases_of_execUnder he).of_released hp
  · exact ⟨hp, rfl⟩
  · cases hp.symm.trans hp'
  · exact absurd hh (hr rest)
  · exact ⟨hp, rfl⟩

/-- Settles O50, by the cases of an instruction. -/
theorem onlyCommitTransfers : Obligations.OnlyCommitTransfers := by
  intro i s
  obtain ⟨t, he, hc⟩ := exec_cases i s
  obtain ⟨es, ho, hes⟩ := hc.out_grows
  exact ⟨t, es, he, ho, hes⟩

/-- Settles O51: of the cases of a step that stays in a session only a setter's writes IMG. -/
theorem onlySettersWriteImage : Obligations.OnlySettersWriteImage := by
  intro s t x y hx hs hy
  have stays (hp : t.phase = s.phase) : y.ledCount = x.ledCount ∧ y.img = x.img := by
    simp [session_eq_of_phase_eq hx hy hp]
  rcases step_cases hs with ⟨k, rest, -, rfl⟩ | ⟨w, rest, i, -, -, hh, hd, he⟩ | ⟨w, rest, -, -, -, rfl⟩ |
    ⟨z, a, rest, -, hz, -, -, rfl⟩ | ⟨rest, -, -, -, rfl⟩ | ⟨-, rfl, -, -⟩
  · exact (stays rfl).imp_right .inl
  · obtain ⟨hn, himg⟩ := (execCases_of_execUnder he).of_usable hx hy
    exact ⟨hn, himg.imp_right fun hi => ⟨w, rest, i, hh, hd, hi⟩⟩
  · exact (stays rfl).imp_right .inl
  · cases hx.symm.trans hz
    cases hy
    exact ⟨rfl, .inl rfl⟩
  · cases hy
  · exact (stays rfl).imp_right .inl

/-- Settles O52, by the cases of an instruction. -/
theorem onlyConstructSetsClock : Obligations.OnlyConstructSetsClock := by
  intro i s hi
  obtain ⟨t, he, hc⟩ := exec_cases i s
  exact ⟨t, he, hc.clk_eq hi⟩

/-- Settles O16: the next move is to idle. -/
theorem idleHostLeavesState : Obligations.IdleHostLeavesState := by
  intro s hsym hf hh
  have hidle : s.nextMove = .idle := by simp [State.nextMove, hsym, hf, hh]
  exact runMove_of_idle hidle

/-- Settles O18: the fields of `State.reset`. -/
theorem resetStateIsUnbuilt : Obligations.ResetStateIsUnbuilt := ⟨rfl, rfl, rfl⟩

/-- Settles O43: after reset there is no session and no event. -/
theorem resetMeetsInvariant : Obligations.ResetMeetsInvariant where
  session := by rintro x ⟨⟩
  events  := by simp [State.reset]

end Sys2Proof.Proofs
end

section
/-! PROOFS. The memory (20_memory.md): the words of IMG on the data line (rules R32 to R34), addresses outside it (rule
R30), the copy in HWR (rules R38, R46, R47). -/

namespace Sys2Proof.Machine

variable {c : Cfg} {s : State} {x : Session} {h : Hwr}

/-! ### An encoded channel on the line -/

/-- The loop of rule R70 has put down the groups below n, and nothing else. -/
theorem getLsbD_encUpTo (v : Byte) (n : Nat) {b k : Nat} (hb : b < 8) (hk : k < 3) :
    (encUpTo c v n).getLsbD (3 * b + k) = (decide (b < n) && (pulseCode c (v.getLsbD b)).getLsbD k) := by
  have h24 : 3 * b + k < 24 := by omega
  induction n with
  | zero => simp [encUpTo]
  | succ n ih =>
    simp only [encUpTo, BitVec.getLsbD_or, ih, BitVec.getLsbD_shiftLeft, BitVec.getLsbD_setWidth]
    rcases lt_trichotomy b n with hlt | rfl | hgt
    · have hbelow : 3 * b + k < 3 * n := by omega
      simp [hbelow, hlt, hlt.trans (Nat.lt_succ_self n)]
    · have hk24 : k < 24 := by omega
      simp [h24, hk24]
    · have habove : 3 ≤ 3 * b + k - 3 * n := by omega
      simp [BitVec.getLsbD_of_ge _ _ habove, hgt.not_gt, show ¬ b < n + 1 by omega]

/-- Group b of an encoded channel is the code of source bit b (rules R51, R70). -/
theorem group_enc (c : Cfg) (v : Byte) {b : Nat} (hb : b < 8) : group (enc c v) b = pulseCode c (v.getLsbD b) := by
  refine BitVec.eq_of_getLsbD_eq fun k hk => ?_
  simp [group, enc, hk, getLsbD_encUpTo v 8 hb hk, hb]

/-- The frame of an encoded channel's bytes is its groups' levels, the highest group first (rules R34, R51, R52). -/
theorem frameBits_be3 (w : EncodedChannel) :
    frameBits (be3 w) = (List.range 8).flatMap fun j => symbolLevels (group w (7 - j)) := by
  simp [frameBits, be3, byteBits, symbolLevels, group, List.range_succ, BitVec.getLsbD_extractLsb']

/-- The frame of an encoded channel is the symbols of its source bits, in the order of rule R103. -/
theorem frameBits_enc (c : Cfg) (v : Byte) :
    frameBits (be3 (enc c v)) = (byteBits v).flatMap fun p => symbolLevels (pulseCode c p) := by
  rw [frameBits_be3, byteBits, List.flatMap_map]
  exact List.flatMap_congr fun j _ => by rw [group_enc c v (by omega)]

/-- A frame has no gap between its parts (rule R101). -/
theorem frameBits_append (l l' : List Byte) : frameBits (l ++ l') = frameBits l ++ frameBits l' :=
  List.flatMap_append

/-- The frame of a set slot is the symbols of green, red and blue (rules R32, R53). -/
theorem frameBits_slotData (c : Cfg) (r g b : Byte) :
    frameBits (slotData c r g b) = (frameBits [g, r, b]).flatMap fun p => symbolLevels (pulseCode c p) := by
  simp only [slotData, frameBits_append, frameBits_enc]
  simp [frameBits]

/-! ### Every step answers -/

/-- A step answers a next state if every instruction does: no other move can stop the machine. -/
theorem runMove_answers {dec : Code → Except DecodeError Instr}
    {run : Instr → State → Host.Outcome State Fault Refusal} (hrun : ∀ i u, ∃ t, run i u = .next t) (s : State) :
    ∃ t, runMove c dec run s = .next t := by
  cases hm : s.nextMove with
  | run w u =>
    obtain ⟨hok, herr⟩ := runMove_of_run (c := c) (dec := dec) (run := run) hm
    cases hd : dec w with
    | ok i => exact hok i hd ▸ hrun i u
    | error e => exact ⟨_, herr e hd⟩
  | answer y a u => exact ⟨_, runMove_of_answer hm⟩
  | reset u => exact ⟨_, runMove_of_reset hm⟩
  | idle => exact ⟨_, runMove_of_idle hm⟩

theorem stepUnder_answers (c : Cfg) (s : State) : ∃ t, stepUnder c s = .next t :=
  runMove_answers (fun i u => (execUnder_cases c i u).imp fun _ hc => hc.1) s

/-! ### A COMMIT and its answer -/

/-- COMMIT's first step in a session (rule R87). -/
theorem exec_commit_of_usable (hp : s.phase = .usable x) : exec .commit s = .next (published cfg s x) := by
  rw [exec_eq]
  rcases commit_cases cfg s with ⟨hne, -⟩ | ⟨y, hy, he⟩
  · exact absurd hp (hne x)
  · cases hp.symm.trans hy
    exact he

/-- While a transfer is in flight the DEVICE's next answer is the next step (rule R87, step 2). -/
theorem step_of_answer {a : Answer} {rest : List Answer} (hsym : s.symbols = []) (hf : s.inFlight = some x)
    (ha : s.answers = a :: rest) : step s = .next (answerTransfer cfg x a { s with answers := rest }) := by
  have hmove : s.nextMove = .answer x a { s with answers := rest } := by simp [State.nextMove, hsym, hf, ha]
  exact runMove_of_answer hmove

/-! ### Replacing HWR -/

theorem State.withHwr_of_usable (hp : s.phase = .usable x) (h : Hwr) :
    s.withHwr h = s.setPhase (.usable { x with hwr := h }) := by
  simp [State.withHwr, hp]

theorem State.withHwr_of_ne (hp : ∀ x, s.phase ≠ .usable x) (h : Hwr) : s.withHwr h = s := by
  unfold State.withHwr
  cases hs : s.phase with
  | usable x => exact absurd hs (hp x)
  | unbuilt => rfl
  | released => rfl

/-- Every state holds some HWR already, or none that could be replaced. -/
theorem State.exists_withHwr_self (s : State) : ∃ h, s.withHwr h = s := by
  by_cases hp : ∃ x, s.phase = .usable x
  · obtain ⟨x, hx⟩ := hp
    exact ⟨x.hwr, by rw [State.withHwr_of_usable hx, State.setPhase, ← hx]⟩
  · exact ⟨.copied [], State.withHwr_of_ne (not_exists.1 hp) _⟩

theorem State.finish_withHwr (s : State) (h : Hwr) (r : Result) : (s.withHwr h).finish r = (s.finish r).withHwr h := by
  unfold State.withHwr
  cases hp : s.phase <;> simp [State.finish, State.setPhase, hp]

theorem State.drive_withHwr (s : State) (h : Hwr) (bits : List Bool) (level : Bool) :
    (s.withHwr h).drive bits level = (s.drive bits level).withHwr h := by
  unfold State.withHwr
  cases hp : s.phase <;> simp [State.drive, State.setPhase, hp]

/-- Both outcomes are next states, and these differ at most in HWR. -/
def AgreeButHwr (o o' : Host.Outcome State Fault Refusal) : Prop :=
  ∃ t h, o = .next t ∧ o' = .next (t.withHwr h)

theorem AgreeButHwr.next_withHwr (t : State) (h : Hwr) : AgreeButHwr (.next t) (.next (t.withHwr h)) :=
  ⟨t, h, rfl, rfl⟩

theorem AgreeButHwr.next_self (t : State) : AgreeButHwr (.next t) (.next t) := by
  obtain ⟨h, ht⟩ := t.exists_withHwr_self
  exact ⟨t, h, rfl, by rw [ht]⟩

theorem AgreeButHwr.finish (s : State) (h : Hwr) (r : Result) :
    AgreeButHwr (.next (s.finish r)) (.next ((s.withHwr h).finish r)) := by
  rw [State.finish_withHwr]
  exact .next_withHwr _ h

/-- A command of a session agrees if what it does in USABLE agrees. -/
theorem AgreeButHwr.whenUsable {k k' : Session → Host.Outcome State Fault Refusal}
    (hk : ∀ x, s.phase = .usable x → AgreeButHwr (k x) (k' { x with hwr := h })) :
    AgreeButHwr (s.whenUsable k) ((s.withHwr h).whenUsable k') := by
  by_cases hp : ∃ x, s.phase = .usable x
  · obtain ⟨x, hx⟩ := hp
    rw [State.withHwr_of_usable hx, State.whenUsable_of_usable k hx, State.whenUsable_of_usable k' rfl]
    exact hk x hx
  · have hne := not_exists.1 hp
    rw [State.withHwr_of_ne hne, State.whenUsable_of_ne k hne, State.whenUsable_of_ne k' hne]
    exact .next_self _

/-- CONSTRUCT (rule R81): where it does more than report there is no HWR yet. -/
theorem construct_agreeButHwr (c : Cfg) (n : Nat) (s : State) (h : Hwr) :
    AgreeButHwr (.next (construct c n s)) (.next (construct c n (s.withHwr h))) := by
  by_cases hp : ∃ x, s.phase = .usable x
  · obtain ⟨x, hx⟩ := hp
    have reports {u : State} {y : Session} (hu : u.phase = .usable y) : construct c n u = u.finish .notUsable := by
      simp [construct, hu]
    rw [reports hx, reports (u := s.withHwr h) (y := { x with hwr := h }) (by simp [State.withHwr_of_usable hx])]
    exact .finish s h _
  · rw [State.withHwr_of_ne (not_exists.1 hp)]
    exact .next_self _

/-- The slot write (rule R84) stores into IMG and keeps HWR as it finds it. -/
theorem setColour_agreeButHwr (c : Cfg) (i : Nat) (r g b : Byte) (s : State) (h : Hwr) :
    AgreeButHwr (setColour c i r g b s) (setColour c i r g b (s.withHwr h)) := by
  refine .whenUsable fun x hx => ?_
  by_cases hi : i < x.ledCount
  · simp only [hi, Session.store_slot, State.withHwr_of_usable hx]
    exact .next_withHwr (coloured c s x i r g b) h
  · simp only [if_neg hi]
    exact .finish s h _

/-- COMMIT's first step (rule R87) overwrites all of HWR. -/
theorem commit_agreeButHwr (c : Cfg) (s : State) (h : Hwr) : AgreeButHwr (commit c s) (commit c (s.withHwr h)) := by
  refine .whenUsable fun x hx => ?_
  rw [State.withHwr_of_usable hx]
  exact .next_self (publishImage c x s)

/-- RELEASE (rule R91) drops HWR. -/
theorem execRelease_agreeButHwr (s : State) (h : Hwr) : AgreeButHwr (execRelease s) (execRelease (s.withHwr h)) := by
  refine .whenUsable fun x hx => ?_
  rw [State.withHwr_of_usable hx]
  exact .next_self (endSession s)

theorem driveSymbol_agreeButHwr (s : State) (h : Hwr) (k : PulseCode) :
    AgreeButHwr (.next (s.driveSymbol k)) (.next ((s.withHwr h).driveSymbol k)) := by
  rw [State.driveSymbol_eq, State.driveSymbol_eq, State.drive_withHwr]
  exact .next_withHwr _ h

/-- Under every configuration no instruction reads HWR (rule R46). -/
theorem execUnder_agreeButHwr (c : Cfg) (i : Instr) (s : State) (h : Hwr) :
    AgreeButHwr (execUnder c i s) (execUnder c i (s.withHwr h)) := by
  cases i with
  | construct n => exact construct_agreeButHwr c n s h
  | setc j r g b => exact setColour_agreeButHwr c j r g b s h
  | setp j p => exact setColour_agreeButHwr c j _ _ _ s h
  | commit => exact commit_agreeButHwr c s h
  | release => exact execRelease_agreeButHwr s h
  | zero => exact driveSymbol_agreeButHwr s h _
  | one => exact driveSymbol_agreeButHwr s h _

end Sys2Proof.Machine

/-! ### The obligations -/

namespace Sys2Proof.Proofs

open Sys2Proof.Machine

/-- Settles O33: IMG and LED_COUNT, which the Transfer event is made of, outlast the DEVICE's answer. -/
theorem commitTwiceSendsTheSame : Obligations.CommitTwiceSendsTheSame := by
  intro s x a rest hsym hx ha
  have hanswer := step_of_answer (s := published cfg s x) (x := x.publish cfg) hsym
    (State.inFlight_eq_some.2 ⟨rfl, by simp [Session.publish]⟩) ha
  exact ⟨_, _, _, _, _, exec_commit_of_usable hx, hanswer, exec_commit_of_usable rfl, List.append_assoc ..⟩

/-- Settles O36: under WIRE_MSB_FIRST the DEVICE shifts the slot's frame. -/
theorem slotWaveformIsGrbSymbols : Obligations.SlotWaveformIsGrbSymbols := by
  intro c d r g b hw
  rw [shiftedBits, if_pos hw]
  exact frameBits_slotData c r g b

/-- Settles O42: no instruction faults or is refused, and no other move can. -/
theorem everyStepAnswersNext : Obligations.EveryStepAnswersNext :=
  ⟨fun s => step_eq s ▸ stepUnder_answers cfg s, stepUnder_answers⟩

/-- Settles O49, instruction by instruction. -/
theorem hwrIsNeverAnInput : Obligations.HwrIsNeverAnInput := by
  intro i s h
  rw [exec_eq, exec_eq]
  exact execUnder_agreeButHwr cfg i s h

end Sys2Proof.Proofs
end

section
/-! PROOFS. The encoding (30_encoding.md): the fields and masks of a command word (rules R57 to R61), the decoder against
the encoder, result codes (rule R62), packed colours (rules R60, R64), and the symbols of a frame (rules R50, R66). -/

namespace Sys2Proof

variable {w : CommandWord} {i : Instr}

/-! ### The fields of a command word -/

theorem word_eq_fields (w : CommandWord) : w = fieldOp w ++ fieldZ w ++ fieldN w ++ fieldPacked w := by
  simp only [fieldOp, fieldZ, fieldN, fieldPacked, BitVec.extractLsb'_append_extractLsb'_eq_extractLsb',
    BitVec.extractLsb'_eq_self]

/-- The fields are all of a word: none of its 64 bits lies outside them (rule R57). -/
theorem word_eq_iff {w v : CommandWord} : w = v ↔
    fieldOp w = fieldOp v ∧ fieldZ w = fieldZ v ∧ fieldN w = fieldN v ∧ fieldPacked w = fieldPacked v := by
  refine ⟨fun h => h ▸ ⟨rfl, rfl, rfl, rfl⟩, fun ⟨hop, hz, hn, hp⟩ => ?_⟩
  rw [word_eq_fields w, word_eq_fields v, hop, hz, hn, hp]

theorem fieldPacked_eq (w : CommandWord) : fieldPacked w = fieldC2 w ++ fieldC1 w ++ fieldC0 w := by
  simp only [fieldPacked, fieldC2, fieldC1, fieldC0, BitVec.extractLsb'_append_extractLsb'_eq_extractLsb']

/-- A packed colour is the three bytes the encoder cuts it into. -/
theorem append_bytes_packed (p : BitVec 24) :
    p.extractLsb' 16 8 ++ p.extractLsb' 8 8 ++ p.extractLsb' 0 8 = p := by
  simp only [BitVec.extractLsb'_append_extractLsb'_eq_extractLsb', BitVec.extractLsb'_eq_self]

section
variable (op : BitVec 4) (n : BitVec 32) (c2 c1 c0 : Byte)

@[simp] theorem fieldOp_commandWord : fieldOp (commandWord op n c2 c1 c0) = op := by
  simp only [fieldOp, commandWord, BitVec.extractLsb'_append_eq_of_le, BitVec.extractLsb'_eq_self,
    Nat.reduceLeDiff, Nat.reduceSub]

@[simp] theorem fieldZ_commandWord : fieldZ (commandWord op n c2 c1 c0) = 0 := by
  simp only [fieldZ, commandWord, BitVec.extractLsb'_append_eq_of_le, BitVec.extractLsb'_append_eq_right,
    Nat.reduceLeDiff, Nat.reduceSub]

@[simp] theorem fieldN_commandWord : fieldN (commandWord op n c2 c1 c0) = n := by
  simp only [fieldN, commandWord, BitVec.extractLsb'_append_eq_of_le, BitVec.extractLsb'_append_eq_right,
    Nat.reduceLeDiff, Nat.reduceSub]

@[simp] theorem fieldC2_commandWord : fieldC2 (commandWord op n c2 c1 c0) = c2 := by
  simp only [fieldC2, commandWord, BitVec.extractLsb'_append_eq_of_le, BitVec.extractLsb'_append_eq_right,
    Nat.reduceLeDiff, Nat.reduceSub]

@[simp] theorem fieldC1_commandWord : fieldC1 (commandWord op n c2 c1 c0) = c1 := by
  simp only [fieldC1, commandWord, BitVec.extractLsb'_append_eq_of_le, BitVec.extractLsb'_append_eq_right,
    Nat.reduceLeDiff, Nat.reduceSub]

@[simp] theorem fieldC0_commandWord : fieldC0 (commandWord op n c2 c1 c0) = c0 :=
  BitVec.extractLsb'_append_eq_right

@[simp] theorem fieldPacked_commandWord : fieldPacked (commandWord op n c2 c1 c0) = c2 ++ c1 ++ c0 := by
  simp only [fieldPacked_eq, fieldC2_commandWord, fieldC1_commandWord, fieldC0_commandWord]

end

/-- The bits 55:0, which are zero in COMMIT and RELEASE, are N and the colour. -/
theorem lowBits_eq_zero_iff : w.extractLsb' 0 56 = 0 ↔ fieldN w = 0 ∧ fieldPacked w = 0 := by
  have hlow : w.extractLsb' 0 56 = fieldN w ++ fieldPacked w := by
    simp only [fieldN, fieldPacked, BitVec.extractLsb'_append_extractLsb'_eq_extractLsb']
  rw [hlow]
  refine ⟨fun h => ⟨?_, ?_⟩, fun ⟨hn, hp⟩ => by rw [hn, hp]; rfl⟩
  · rw [← BitVec.extractLsb'_append_eq_left (a := fieldN w) (b := fieldPacked w), h]
    rfl
  · rw [← BitVec.extractLsb'_append_eq_right (a := fieldN w) (b := fieldPacked w), h]
    rfl

/-- A number that fits N comes back from it (rule R59). -/
theorem toNat_ofNat_of_fitsN {n : Nat} (h : fitsN n) : (BitVec.ofNat 32 n).toNat = n := by
  rw [BitVec.toNat_ofNat, Nat.mod_eq_of_lt h]

/-! ### The masks of the opcode map as conditions on fields -/

theorem fieldOp_and (w v : CommandWord) : fieldOp (w &&& v) = fieldOp w &&& fieldOp v := BitVec.extractLsb'_and
theorem fieldZ_and (w v : CommandWord) : fieldZ (w &&& v) = fieldZ w &&& fieldZ v := BitVec.extractLsb'_and
theorem fieldN_and (w v : CommandWord) : fieldN (w &&& v) = fieldN w &&& fieldN v := BitVec.extractLsb'_and
theorem fieldPacked_and (w v : CommandWord) : fieldPacked (w &&& v) = fieldPacked w &&& fieldPacked v :=
  BitVec.extractLsb'_and

/-- A masked word is an operation code and nothing else iff its masked fields are. -/
theorem and_eq_opcode_iff {m : CommandWord} {op : BitVec 4} :
    w &&& m = commandWord op 0 0 0 0 ↔ fieldOp w &&& fieldOp m = op ∧ fieldZ w &&& fieldZ m = 0 ∧
      fieldN w &&& fieldN m = 0 ∧ fieldPacked w &&& fieldPacked m = 0 := by
  simp [word_eq_iff, fieldOp_and, fieldZ_and, fieldN_and, fieldPacked_and]

/-- The mask of SETC and SETP keeps OP and Z. -/
theorem and_settersMask_eq_iff {op : BitVec 4} :
    w &&& 0xFF00000000000000#64 = commandWord op 0 0 0 0 ↔ fieldOp w = op ∧ fieldZ w = 0 := by
  have hop : fieldOp 0xFF00000000000000#64 = BitVec.allOnes 4 := by decide
  have hz : fieldZ 0xFF00000000000000#64 = BitVec.allOnes 4 := by decide
  have hn : fieldN 0xFF00000000000000#64 = 0#32 := by decide
  have hp : fieldPacked 0xFF00000000000000#64 = 0#24 := by decide
  rw [and_eq_opcode_iff, hop, hz, hn, hp]
  simp only [BitVec.and_allOnes, BitVec.and_zero, BitVec.ofNat_eq_ofNat, and_true]

/-- The mask of CONSTRUCT keeps the colour too. -/
theorem and_constructMask_eq_iff {op : BitVec 4} :
    w &&& 0xFF00000000FFFFFF#64 = commandWord op 0 0 0 0 ↔ fieldOp w = op ∧ fieldZ w = 0 ∧ fieldPacked w = 0 := by
  have hop : fieldOp 0xFF00000000FFFFFF#64 = BitVec.allOnes 4 := by decide
  have hz : fieldZ 0xFF00000000FFFFFF#64 = BitVec.allOnes 4 := by decide
  have hn : fieldN 0xFF00000000FFFFFF#64 = 0#32 := by decide
  have hp : fieldPacked 0xFF00000000FFFFFF#64 = BitVec.allOnes 24 := by decide
  rw [and_eq_opcode_iff, hop, hz, hn, hp]
  simp only [BitVec.and_allOnes, BitVec.and_zero, BitVec.ofNat_eq_ofNat, true_and]

/-- The mask of COMMIT and RELEASE keeps everything. -/
theorem and_allOnes_eq_opcode_iff {op : BitVec 4} :
    w &&& 0xFFFFFFFFFFFFFFFF#64 = commandWord op 0 0 0 0 ↔
      fieldOp w = op ∧ fieldZ w = 0 ∧ fieldN w = 0 ∧ fieldPacked w = 0 := by
  rw [show w &&& 0xFFFFFFFFFFFFFFFF#64 = w from BitVec.and_allOnes]
  simp [word_eq_iff]

theorem and_eq_construct_iff : w &&& 0xFF00000000FFFFFF#64 = 0x1000000000000000#64 ↔
    fieldOp w = 0x1 ∧ fieldZ w = 0 ∧ fieldPacked w = 0 := and_constructMask_eq_iff (op := 0x1)

theorem and_eq_setc_iff : w &&& 0xFF00000000000000#64 = 0x2000000000000000#64 ↔
    fieldOp w = 0x2 ∧ fieldZ w = 0 := and_settersMask_eq_iff (op := 0x2)

theorem and_eq_setp_iff : w &&& 0xFF00000000000000#64 = 0x3000000000000000#64 ↔
    fieldOp w = 0x3 ∧ fieldZ w = 0 := and_settersMask_eq_iff (op := 0x3)

theorem and_eq_commit_iff : w &&& 0xFFFFFFFFFFFFFFFF#64 = 0x4000000000000000#64 ↔
    fieldOp w = 0x4 ∧ fieldZ w = 0 ∧ fieldN w = 0 ∧ fieldPacked w = 0 := and_allOnes_eq_opcode_iff (op := 0x4)

theorem and_eq_release_iff : w &&& 0xFFFFFFFFFFFFFFFF#64 = 0x5000000000000000#64 ↔
    fieldOp w = 0x5 ∧ fieldZ w = 0 ∧ fieldN w = 0 ∧ fieldPacked w = 0 := and_allOnes_eq_opcode_iff (op := 0x5)

/-! ### The opcode map -/

/-- The match bits of two rows differ where both masks look (rule R58). -/
theorem opcodeMap_pairwise :
    opcodeMap.Pairwise fun r r' => r.matchBits &&& r'.mask ≠ r'.matchBits &&& r.mask := by
  decide

theorem OpcodeRow.matches_iff {r : OpcodeRow} : r.matches w ↔ w &&& r.mask = r.matchBits := beq_iff_eq

/-- Two rows with a word in common agree where both masks look. -/
theorem OpcodeRow.matchBits_and_eq {r r' : OpcodeRow} (h : r.matches w) (h' : r'.matches w) :
    r.matchBits &&& r'.mask = r'.matchBits &&& r.mask := by
  rw [← OpcodeRow.matches_iff.1 h, ← OpcodeRow.matches_iff.1 h', BitVec.and_assoc, BitVec.and_assoc,
    BitVec.and_comm r.mask]

/-- The decoder finds whichever row matches, as no word matches two. -/
theorem find?_opcodeMap_eq_some_iff {r : OpcodeRow} :
    opcodeMap.find? (OpcodeRow.matches · w) = some r ↔ r ∈ opcodeMap ∧ r.matches w := by
  constructor
  · exact fun h => ⟨List.mem_of_find?_eq_some h, List.find?_some (p := (OpcodeRow.matches · w)) h⟩
  · rintro ⟨hr, hw⟩
    obtain ⟨as, bs, hsplit⟩ := List.append_of_mem hr
    obtain ⟨-, -, hex⟩ := List.pairwise_append.1 (hsplit ▸ opcodeMap_pairwise)
    refine List.find?_eq_some_iff_append.2 ⟨hw, as, bs, hsplit, fun a ha => ?_⟩
    have hne : ¬ a.matches w := fun haw => hex a ha r (by simp) (OpcodeRow.matchBits_and_eq haw hw)
    simpa using hne

theorem decode_command_eq_ok_iff_row :
    decode (.command w) = .ok i ↔ ∃ r ∈ opcodeMap, r.matches w ∧ i = r.build w := by
  rw [decode, decodeCommand]
  cases hf : opcodeMap.find? (OpcodeRow.matches · w) with
  | none =>
    have hnone := List.find?_eq_none.1 hf
    simp only [reduceCtorEq, false_iff, not_exists, not_and]
    exact fun r hr hw => absurd hw (hnone r hr)
  | some r =>
    obtain ⟨hr, hw⟩ := find?_opcodeMap_eq_some_iff.1 hf
    simp only [Except.ok.injEq]
    refine ⟨fun h => ⟨r, hr, hw, h.symm⟩, fun ⟨r', hr', hw', h⟩ => ?_⟩
    have hsame : r = r' := Option.some.inj (hf.symm.trans (find?_opcodeMap_eq_some_iff.2 ⟨hr', hw'⟩))
    rw [hsame, h]

theorem decode_command_eq_illegal_iff_row :
    decode (.command w) = .error .illegalCommand ↔ ∀ r ∈ opcodeMap, ¬ r.matches w := by
  rw [← List.find?_eq_none, decode, decodeCommand]
  cases opcodeMap.find? (OpcodeRow.matches · w) <;> simp

/-- What a command word decodes to, by the masks (rule R58). -/
theorem decode_command_eq_ok_iff :
    decode (.command w) = .ok i ↔
      (w &&& 0xFF00000000FFFFFF#64 = 0x1000000000000000#64 ∧ i = .construct (fieldN w).toNat) ∨
      (w &&& 0xFF00000000000000#64 = 0x2000000000000000#64 ∧
        i = .setc (fieldN w).toNat (fieldC2 w) (fieldC1 w) (fieldC0 w)) ∨
      (w &&& 0xFF00000000000000#64 = 0x3000000000000000#64 ∧ i = .setp (fieldN w).toNat (fieldPacked w)) ∨
      (w &&& 0xFFFFFFFFFFFFFFFF#64 = 0x4000000000000000#64 ∧ i = .commit) ∨
      (w &&& 0xFFFFFFFFFFFFFFFF#64 = 0x5000000000000000#64 ∧ i = .release) := by
  simp only [decode_command_eq_ok_iff_row, opcodeMap, OpcodeRow.matches_iff, List.exists_mem_cons_iff,
    List.not_mem_nil, false_and, exists_false, or_false, BitVec.ofNat_eq_ofNat]

/-- What a command word decodes to, by the fields (rules R57, R61). -/
theorem decode_command_eq_ok_iff_fields :
    decode (.command w) = .ok i ↔
      ((fieldOp w = 0x1 ∧ fieldZ w = 0 ∧ fieldPacked w = 0) ∧ i = .construct (fieldN w).toNat) ∨
      ((fieldOp w = 0x2 ∧ fieldZ w = 0) ∧ i = .setc (fieldN w).toNat (fieldC2 w) (fieldC1 w) (fieldC0 w)) ∨
      ((fieldOp w = 0x3 ∧ fieldZ w = 0) ∧ i = .setp (fieldN w).toNat (fieldPacked w)) ∨
      ((fieldOp w = 0x4 ∧ fieldZ w = 0 ∧ fieldN w = 0 ∧ fieldPacked w = 0) ∧ i = .commit) ∨
      ((fieldOp w = 0x5 ∧ fieldZ w = 0 ∧ fieldN w = 0 ∧ fieldPacked w = 0) ∧ i = .release) := by
  rw [decode_command_eq_ok_iff, and_eq_construct_iff, and_eq_setc_iff, and_eq_setp_iff, and_eq_commit_iff,
    and_eq_release_iff]

/-- A word of no row is illegal (rule R61). -/
theorem decode_command_eq_illegal_iff :
    decode (.command w) = .error .illegalCommand ↔
      w &&& 0xFF00000000FFFFFF#64 ≠ 0x1000000000000000#64 ∧ w &&& 0xFF00000000000000#64 ≠ 0x2000000000000000#64 ∧
        w &&& 0xFF00000000000000#64 ≠ 0x3000000000000000#64 ∧ w &&& 0xFFFFFFFFFFFFFFFF#64 ≠ 0x4000000000000000#64 ∧
        w &&& 0xFFFFFFFFFFFFFFFF#64 ≠ 0x5000000000000000#64 := by
  simp only [decode_command_eq_illegal_iff_row, opcodeMap, OpcodeRow.matches_iff, List.forall_mem_cons,
    List.not_mem_nil, false_implies, implies_true, and_true, BitVec.ofNat_eq_ofNat, ne_eq]

/-- An operation code is one of the five rows' or an illegal one, and not both (rules R58, R61). -/
theorem opcode_cases (op : BitVec 4) :
    op = 0x1#4 ∨ op = 0x2#4 ∨ op = 0x3#4 ∨ op = 0x4#4 ∨ op = 0x5#4 ∨
      ((op = 0x0#4 ∨ 0x6#4 ≤ op) ∧ op ≠ 0x1#4 ∧ op ≠ 0x2#4 ∧ op ≠ 0x3#4 ∧ op ≠ 0x4#4 ∧ op ≠ 0x5#4) := by
  revert op
  decide

/-- What a symbol decodes to (rule R50). -/
theorem decode_symbol_eq_ok_iff {k : PulseCode} :
    decode (.symbol k) = .ok i ↔ (k = 0b100 ∧ i = .zero) ∨ (k = 0b110 ∧ i = .one) := by
  simp only [decode, decodeSymbol]
  by_cases hz : k = 0b100
  · simp [hz, eq_comm]
  · by_cases ho : k = 0b110
    · simp [ho, eq_comm]
    · simp only [hz, ho, if_false, reduceCtorEq, false_and, or_false]

/-! ### Packed colours -/

theorem packRgb_eq_append (r g b : Byte) : packRgb r g b = r ++ g ++ b := by
  rw [packRgb, ← BitVec.setWidth_eq (r ++ g ++ b), BitVec.setWidth_append_append_eq_shiftLeft_setWidth_or]

theorem Machine.unpackRgb_append (r g b : Byte) : unpackRgb (r ++ g ++ b) = ⟨r, g, b⟩ := by
  simp only [unpackRgb, BitVec.extractLsb'_append_eq_of_le, BitVec.extractLsb'_append_eq_right,
    BitVec.extractLsb'_eq_self, Nat.reduceLeDiff, Nat.reduceSub]

end Sys2Proof

namespace Sys2Proof.Machine

variable {c : Cfg} {i : Instr} {s t : State} {x : Session} {m : Memory}

/-! ### The shifter's port -/

/-- No instruction touches the shifter's port (log entry 11). -/
theorem ExecCases.symbols_eq (h : ExecCases c i s t) : t.symbols = s.symbols := by
  rcases h with ⟨r, rfl⟩ | ⟨n, d, l, k, -, -, -, rfl⟩ | ⟨n, es, cs, hz, r, l, k, -, -, -, -, -, rfl⟩ |
    ⟨x, j, r, g, b, -, -, -, rfl⟩ | ⟨x, -, -, rfl⟩ | ⟨x, -, -, rfl⟩ | ⟨-, k, rfl⟩
  · rfl
  · rfl
  · rfl
  · rfl
  · rfl
  · rfl
  · rfl

/-! ### A frame as a list of symbols -/

/-- Symbols on the data line, one after the other with no gap (rules R66, R101). -/
def symbolBits (ks : List PulseCode) : List Bool := ks.flatMap symbolLevels

theorem symbolBits_cons (k : PulseCode) (ks : List PulseCode) :
    symbolBits (k :: ks) = k.getLsbD 2 :: k.getLsbD 1 :: k.getLsbD 0 :: symbolBits ks := rfl

theorem symbolBits_append (ks ls : List PulseCode) : symbolBits (ks ++ ls) = symbolBits ks ++ symbolBits ls :=
  List.flatMap_append

@[simp] theorem length_symbolBits (ks : List PulseCode) : (symbolBits ks).length = 3 * ks.length := by
  induction ks with
  | nil => rfl
  | cons k ks ih =>
    simp only [symbolBits_cons, List.length_cons, ih]
    omega

theorem frameSymbol_levels_cons (k : PulseCode) (bits : List Bool) :
    frameSymbol (k.getLsbD 2 :: k.getLsbD 1 :: k.getLsbD 0 :: bits) 0 = k := by
  simp only [frameSymbol, List.getD_cons_zero, List.getD_cons_succ, Nat.mul_zero, Nat.zero_add]
  revert k
  decide

/-- A frame of symbols read three bits at a time is those symbols, and 000 beyond the last. -/
theorem frameSymbol_symbolBits (ks : List PulseCode) (j : Nat) : frameSymbol (symbolBits ks) j = ks.getD j 0 := by
  induction ks generalizing j with
  | nil => simp [symbolBits, frameSymbol]
  | cons k ks ih =>
    rw [symbolBits_cons]
    cases j with
    | zero => exact frameSymbol_levels_cons k _
    | succ j =>
      rw [List.getD_cons_succ, ← ih]
      simp [frameSymbol, Nat.mul_succ]

/-- A zero slot is 24 symbols 000 on the line (rule R66). -/
theorem frameBits_zeroSlots (n : Nat) :
    frameBits (List.replicate (slotBytes * n) 0) = symbolBits (List.replicate (24 * n) 0) := by
  induction n with
  | zero => rfl
  | succ n ih =>
    rw [Nat.mul_succ, Nat.mul_succ, List.replicate_add, List.replicate_add, frameBits_append, symbolBits_append, ih]
    rfl

/-! ### The symbols of IMG's frame -/

theorem Memory.readBytes_add (m : Memory) (base a b : Nat) :
    Memory.readBytes m base (a + b) = Memory.readBytes m base a ++ Memory.readBytes m (base + a) b := by
  simp [Memory.readBytes, List.range_add, Nat.add_assoc]

theorem Memory.readBytes_eq_zeros {base n : Nat} (h : ∀ k, base ≤ k → k < base + n → Memory.read m k = 0) :
    Memory.readBytes m base n = List.replicate n 0 := by
  refine List.eq_replicate_iff.2 ⟨m.length_readBytes base n, fun v hv => ?_⟩
  obtain ⟨j, hj, rfl⟩ := List.mem_map.1 hv
  exact h _ (by omega) (by have := List.mem_range.1 hj; omega)

/-- The symbols a frame may hold (rule R66). -/
abbrev FrameCode (c : Cfg) (k : PulseCode) : Prop := k = 0 ∨ k = c.zero ∨ k = c.one

theorem pulseCode_frameCode (c : Cfg) (b : Bool) : FrameCode c (pulseCode c b) := by
  cases b
  · exact .inr (.inl rfl)
  · exact .inr (.inr rfl)

/-- The bits are n symbols, each of which a frame may hold. -/
def HoldsSymbols (c : Cfg) (n : Nat) (bits : List Bool) : Prop :=
  ∃ ks, bits = symbolBits ks ∧ ks.length = n ∧ ∀ k ∈ ks, FrameCode c k

theorem HoldsSymbols.append {n n' : Nat} {bits bits' : List Bool} (h : HoldsSymbols c n bits)
    (h' : HoldsSymbols c n' bits') : HoldsSymbols c (n + n') (bits ++ bits') := by
  obtain ⟨ks, rfl, rfl, hks⟩ := h
  obtain ⟨ls, rfl, rfl, hls⟩ := h'
  exact ⟨ks ++ ls, (symbolBits_append ks ls).symm, List.length_append,
    fun k hk => (List.mem_append.1 hk).elim (hks k) (hls k)⟩

/-- An LED's slot, unset or coloured (I-slot, rule R24). -/
theorem SlotOk.holdsSymbols {l : Nat} (h : SlotOk c m l) :
    HoldsSymbols c 24 (frameBits (Memory.readBytes m (slotBase c l) slotBytes)) := by
  rcases h with h | ⟨r, g, b, h⟩
  · exact ⟨List.replicate 24 0, by rw [h]; exact frameBits_zeroSlots 1, List.length_replicate,
      fun k hk => .inl (List.eq_of_mem_replicate hk)⟩
  · refine ⟨(frameBits [g, r, b]).map (pulseCode c), ?_, by simp [frameBits, byteBits], fun k hk => ?_⟩
    · rw [h, frameBits_slotData, symbolBits, List.flatMap_map]
    · obtain ⟨p, -, rfl⟩ := List.mem_map.1 hk
      exact pulseCode_frameCode c p

/-- The slots of the first n LEDs, one after the other. -/
theorem holdsSymbols_slots {n : Nat} (h : ∀ l < n, SlotOk c m l) :
    HoldsSymbols c (24 * n) (frameBits (Memory.readBytes m (slotBase c 0) (slotBytes * n))) := by
  induction n with
  | zero => exact ⟨[], rfl, rfl, by simp⟩
  | succ n ih =>
    have hbase : slotBase c 0 + slotBytes * n = slotBase c n := by
      simp only [slotBase]
      ring
    rw [Nat.mul_succ, Nat.mul_succ, Memory.readBytes_add, frameBits_append, hbase]
    exact (ih fun l hl => h l (by omega)).append (h n (by omega)).holdsSymbols

/-- The frame of IMG in symbols: the lead padding's, the LEDs', the trail padding's (rules R66, R102). -/
theorem Session.Inv.frameBits_eq (h : x.Inv c) : ∃ ks, ks.length = 24 * x.ledCount ∧ (∀ k ∈ ks, FrameCode c k) ∧
    frameBits (Memory.readBytes x.img 0 (x.bufLen c)) = symbolBits (List.replicate (24 * c.leadOffset) 0 ++ ks ++
      List.replicate (24 * c.trailZeroCount) 0) := by
  obtain ⟨ks, hbits, hlen, hks⟩ := holdsSymbols_slots h.slots
  have hbuf : x.bufLen c = slotBytes * c.leadOffset + slotBytes * x.ledCount + slotBytes * c.trailZeroCount := by
    simp only [Session.bufLen, Machine.bufLen]
    ring
  have hlead : Memory.readBytes x.img 0 (slotBytes * c.leadOffset) = List.replicate (slotBytes * c.leadOffset) 0 :=
    Memory.readBytes_eq_zeros fun k _ hk => h.padding k (.inl (by simpa using hk))
  have htrail : Memory.readBytes x.img (slotBytes * c.leadOffset + slotBytes * x.ledCount)
      (slotBytes * c.trailZeroCount) = List.replicate (slotBytes * c.trailZeroCount) 0 :=
    Memory.readBytes_eq_zeros fun k hlo hhi =>
      h.padding k (.inr ⟨by simpa [Nat.mul_add] using hlo, hhi.trans_eq hbuf.symm⟩)
  refine ⟨ks, hlen, hks, ?_⟩
  rw [hbuf, Memory.readBytes_add, Memory.readBytes_add, Nat.zero_add, Nat.zero_add, hlead, htrail, frameBits_append,
    frameBits_append, frameBits_zeroSlots, frameBits_zeroSlots, symbolBits_append, symbolBits_append, ← hbits]
  rfl

/-! ### An entry of a list, or the default beyond it -/

theorem getD_eq_or_mem {α : Type} (l : List α) (j : Nat) (d : α) : l.getD j d = d ∨ l.getD j d ∈ l := by
  rcases lt_or_ge j l.length with hj | hj
  · exact .inr (List.getD_eq_getElem l d hj ▸ List.getElem_mem hj)
  · exact .inl (List.getD_eq_default l d hj)

theorem getD_append_replicate {α : Type} {l : List α} {n j : Nat} {d : α} (hj : l.length ≤ j) :
    (l ++ List.replicate n d).getD j d = d := by
  rw [List.getD_append_right _ _ _ _ hj, List.getD_eq_getElem?_getD, List.getElem?_getD_replicate_default_eq]

end Sys2Proof.Machine

/-! ### The obligations -/

namespace Sys2Proof.Proofs

open Sys2Proof.Machine

/-- Settles O1: the encoder's word has its row's fields, from which the decoder takes the operands back. -/
theorem decodeOfEncodeIsInstr : Obligations.DecodeOfEncodeIsInstr := by
  intro i hi
  cases i with
  | construct n =>
    have hn := toNat_ofNat_of_fitsN (of_decide_eq_true hi)
    simp [encode, decode_command_eq_ok_iff_fields, hn]
  | setc j r g b =>
    have hj := toNat_ofNat_of_fitsN (of_decide_eq_true hi)
    simp [encode, decode_command_eq_ok_iff_fields, hj]
  | setp j p =>
    have hj := toNat_ofNat_of_fitsN (of_decide_eq_true hi)
    simp [encode, decode_command_eq_ok_iff_fields, hj, append_bytes_packed]
  | commit => simp [encode, decode_command_eq_ok_iff_fields]
  | release => simp [encode, decode_command_eq_ok_iff_fields]
  | zero => rfl
  | one => rfl

/-- Settles O2: every field of a word that decodes is an operand or fixed by its row. -/
theorem encodeOfDecodeIsCode : Obligations.EncodeOfDecodeIsCode := by
  intro w i h
  cases w with
  | command w =>
    have hfits : decide (fitsN (fieldN w).toNat) = true := decide_eq_true (fieldN w).isLt
    rcases decode_command_eq_ok_iff_fields.1 h with ⟨⟨hop, hz, hp⟩, rfl⟩ | ⟨⟨hop, hz⟩, rfl⟩ | ⟨⟨hop, hz⟩, rfl⟩ |
      ⟨⟨hop, hz, hn, hp⟩, rfl⟩ | ⟨⟨hop, hz, hn, hp⟩, rfl⟩
    · exact ⟨congrArg Code.command (word_eq_iff.2 (by simp [hop, hz, hp])), hfits⟩
    · exact ⟨congrArg Code.command (word_eq_iff.2 (by simp [hop, hz, fieldPacked_eq])), hfits⟩
    · exact ⟨congrArg Code.command (word_eq_iff.2 (by simp [hop, hz, append_bytes_packed])), hfits⟩
    · exact ⟨congrArg Code.command (word_eq_iff.2 (by simp [hop, hz, hn, hp])), rfl⟩
    · exact ⟨congrArg Code.command (word_eq_iff.2 (by simp [hop, hz, hn, hp])), rfl⟩
  | symbol k =>
    rcases decode_symbol_eq_ok_iff.1 h with ⟨rfl, rfl⟩ | ⟨rfl, rfl⟩
    · exact ⟨rfl, rfl⟩
    · exact ⟨rfl, rfl⟩

/-- Settles O3: the decoder finds a row iff it matches, and the rows build different instructions. -/
theorem wordIsCommandIffRowMatches : Obligations.WordIsCommandIffRowMatches := by
  intro w
  refine ⟨fun n => ?_, fun i r g b => ?_, fun i p => ?_, ?_, ?_, ?_, ?_, decode_command_eq_illegal_iff⟩
  · simp [decode_command_eq_ok_iff, fieldN]
  · simp [decode_command_eq_ok_iff, fieldN, fieldC2, fieldC1, fieldC0]
  · simp [decode_command_eq_ok_iff, fieldN, fieldPacked]
  · simp [decode_command_eq_ok_iff]
  · simp [decode_command_eq_ok_iff]
  · simp [decode_command_eq_ok_iff]
  · simp [decode_command_eq_ok_iff]

/-- Settles O4: the masks as conditions on fields, then Z and each operation code in turn. -/
theorem illegalWordsByField : Obligations.IllegalWordsByField := by
  intro w
  change _ ↔ (fieldOp w = _ ∨ _ ≤ fieldOp w) ∨ fieldZ w ≠ _ ∨ (fieldOp w = _ ∧ fieldPacked w ≠ _) ∨
    ((fieldOp w = _ ∨ fieldOp w = _) ∧ ¬ (_ = 0))
  simp only [decode_command_eq_illegal_iff, ne_eq, and_eq_construct_iff, and_eq_setc_iff, and_eq_setp_iff,
    and_eq_commit_iff, and_eq_release_iff, lowBits_eq_zero_iff]
  by_cases hz : fieldZ w = 0#4
  · rcases opcode_cases (fieldOp w) with h | h | h | h | h | ⟨h, h1, h2, h3, h4, h5⟩
    · simp [h, hz]
    · simp [h, hz]
    · simp [h, hz]
    · simp [h, hz]
    · simp [h, hz]
    · simp [h, h1, h2, h3, h4, h5]
  · simp [hz]

/-- Settles O37: the frame is a list of symbols, of which those before the first LED's and after the last's are 000. -/
theorem frameHoldsOnlyThreeSymbols : Obligations.FrameHoldsOnlyThreeSymbols := by
  intro s x hs hx
  obtain ⟨ks, hlen, hks, hframe⟩ := (hs.session x hx).frameBits_eq
  simp only [hframe, frameSymbol_symbolBits, cfg_leadOffset, cfg_trailZeroCount]
  refine ⟨?_, fun j => ?_, fun j hj => ?_⟩
  · simp only [length_symbolBits, List.length_append, List.length_replicate, hlen]
    omega
  · rcases getD_eq_or_mem (List.replicate 24 0 ++ ks ++ List.replicate 72 0) j (0 : PulseCode) with h | h
    · exact .inl h
    · simp only [List.mem_append, List.mem_replicate] at h
      rcases h with (⟨-, h⟩ | h) | ⟨-, h⟩
      · exact .inl h
      · exact hks _ h
      · exact .inl h
  · rcases hj with hj | hj
    · rw [List.append_assoc, List.getD_append _ _ _ _ (by simpa using hj), List.getD_replicate _ (by simpa using hj)]
      rfl
    · refine getD_append_replicate ?_
      simp only [List.length_append, List.length_replicate, hlen]
      omega

/-- Settles O53: only a step that takes a symbol changes the port, and every other step finds it empty. -/
theorem shifterPortOnlyDrains : Obligations.ShifterPortOnlyDrains := by
  intro s t hs
  rcases step_cases hs with ⟨k, rest, hsym, rfl⟩ | ⟨w, rest, i, hsym, -, -, -, he⟩ | ⟨w, rest, hsym, -, -, rfl⟩ |
    ⟨x, a, rest, hsym, -, -, -, rfl⟩ | ⟨rest, hsym, -, -, rfl⟩ | ⟨hsym, rfl, -, -⟩
  · simp [hsym]
  · simp [(execCases_of_execUnder he).symbols_eq, hsym]
  · simp [hsym]
  · simp [answerTransfer_eq, hsym]
  · simp [State.resetBlock_eq, hsym]
  · simp [hsym]

/-- Settles O5: the decoder run on twelve codes. -/
theorem writtenWordsDecode : Obligations.WrittenWordsDecode := by
  unfold Obligations.WrittenWordsDecode
  decide

/-- Settles O6, result by result. -/
theorem resultCodesAreNumbered : Obligations.ResultCodesAreNumbered := by
  refine ⟨rfl, rfl, rfl, rfl, rfl, rfl, rfl, rfl, fun r => ?_⟩
  cases r <;> decide

/-- Settles O26: packing puts the channels side by side. -/
theorem unpackOfPackIsColour : Obligations.UnpackOfPackIsColour :=
  ⟨fun _ => rfl, fun r g b => packRgb_eq_append r g b ▸ unpackRgb_append r g b⟩

/-- Settles O39: the levels of this hardware's two codes. -/
theorem pulseSymbolsDriveTheLine : Obligations.PulseSymbolsDriveTheLine := fun _ => ⟨rfl, rfl⟩

end Sys2Proof.Proofs
end

section
/-! PROOFS. The Pulse Encoder (40_pulse_encoder.md): the bits and groups of an encoded channel, its left inverse (rule
R73), its concatenation and nibble forms (rules R71, R75), its closed forms with the reference codes (rules R74, R76). -/

namespace Sys2Proof.Machine

variable {c : Cfg}

/-! ### Bits and groups -/

/-- Bit k of group b of ENC(v) is that bit of the code of source bit b (rules R51, R70). -/
theorem getLsbD_enc (c : Cfg) (v : Byte) {b k : Nat} (hb : b < 8) (hk : k < 3) :
    (enc c v).getLsbD (3 * b + k) = (pulseCode c (v.getLsbD b)).getLsbD k := by
  simp [enc, getLsbD_encUpTo v 8 hb hk, hb]

/-- An encoded channel is its eight groups of three bits (rule R51). -/
theorem encodedChannel_ext {w w' : EncodedChannel}
    (h : ∀ b k, b < 8 → k < 3 → w.getLsbD (3 * b + k) = w'.getLsbD (3 * b + k)) : w = w' := by
  refine BitVec.eq_of_getLsbD_eq fun i hi => ?_
  have hbit := h (i / 3) (i % 3) (by omega) (Nat.mod_lt i (by decide))
  rwa [Nat.div_add_mod] at hbit

/-- ENC(v) is the one word that holds the codes of v's bits. -/
theorem enc_eq_of_codes {v : Byte} {w : EncodedChannel}
    (h : ∀ b k, b < 8 → k < 3 → w.getLsbD (3 * b + k) = (pulseCode c (v.getLsbD b)).getLsbD k) : enc c v = w :=
  encodedChannel_ext fun b k hb hk => (getLsbD_enc c v hb hk).trans (h b k hb hk).symm

/-! ### DEC, the left inverse (rule R73) -/

theorem pulseCode_eq_one_iff (hc : c.Valid) (p : Bool) : pulseCode c p = c.one ↔ p = true := by
  cases p
  · simp [pulseCode, hc.symm]
  · simp [pulseCode]

theorem pulseCode_eq_one_or_zero (c : Cfg) (p : Bool) : pulseCode c p = c.one ∨ pulseCode c p = c.zero := by
  cases p
  · exact .inr rfl
  · exact .inl rfl

/-- The bits of DEC below n are set where the group is ONE. -/
theorem getLsbD_decUpTo (c : Cfg) (w : EncodedChannel) (n : Nat) {b : Nat} (hb : b < 8) :
    (decUpTo c w n).getLsbD b = (decide (b < n) && decide (group w b = c.one)) := by
  induction n with
  | zero => simp [decUpTo]
  | succ n ih =>
    simp only [decUpTo, BitVec.getLsbD_or, ih, BitVec.getLsbD_shiftLeft, BitVec.getLsbD_setWidth, BitVec.getLsbD_ofBool]
    rcases lt_trichotomy b n with hlt | rfl | hgt
    · simp [hlt, hlt.trans (Nat.lt_succ_self n)]
    · simp [hb]
    · simp [hgt.not_gt, show ¬ b < n + 1 by omega, show b - n ≠ 0 by omega]

theorem dec_enc (hc : c.Valid) (v : Byte) : dec c (enc c v) = v := by
  refine BitVec.eq_of_getLsbD_eq fun b hb => ?_
  rw [dec, getLsbD_decUpTo c _ 8 hb, group_enc c v hb]
  simp [hb, pulseCode_eq_one_iff hc]

/-! ### ENC by concatenation (rules R71, R75) -/

/-- Appending a code moves the codes before it up by one group. -/
theorem getLsbD_append_code_succ {n : Nat} (x : BitVec n) (p : PulseCode) (b k : Nat) :
    (x ++ p).getLsbD (3 * (b + 1) + k) = x.getLsbD (3 * b + k) := by
  rw [BitVec.getLsbD_append, if_neg (by omega), show 3 * (b + 1) + k - 3 = 3 * b + k by omega]

/-- The code appended last is group 0. -/
theorem getLsbD_append_code_zero {n : Nat} (x : BitVec n) (p : PulseCode) {k : Nat} (hk : k < 3) :
    (x ++ p).getLsbD k = p.getLsbD k := by
  rw [BitVec.getLsbD_append, if_pos hk]

/-- Group b of a nibble's encoding is the code of its bit b (rule R75). -/
theorem getLsbD_encNibble (c : Cfg) (n : BitVec 4) {b k : Nat} (hb : b < 4) (hk : k < 3) :
    (encNibble c n).getLsbD (3 * b + k) = (pulseCode c (n.getLsbD b)).getLsbD k := by
  rw [encNibble, BitVec.setWidth_eq]
  interval_cases b <;>
    simp only [getLsbD_append_code_succ, getLsbD_append_code_zero _ _ hk, Nat.mul_zero, Nat.zero_add]

theorem enc_eq_append (c : Cfg) (v : Byte) : enc c v =
    (pulseCode c (v.getLsbD 7) ++ pulseCode c (v.getLsbD 6) ++ pulseCode c (v.getLsbD 5) ++ pulseCode c (v.getLsbD 4) ++
      pulseCode c (v.getLsbD 3) ++ pulseCode c (v.getLsbD 2) ++ pulseCode c (v.getLsbD 1) ++
      pulseCode c (v.getLsbD 0)).setWidth 24 := by
  refine enc_eq_of_codes fun b k hb hk => ?_
  rw [BitVec.setWidth_eq]
  interval_cases b <;>
    simp only [getLsbD_append_code_succ, getLsbD_append_code_zero _ _ hk, Nat.mul_zero, Nat.zero_add]

/-- Shifting left by whole groups. -/
theorem getLsbD_shiftLeft_groups (w : EncodedChannel) (n : Nat) {b k : Nat} (hb : b < 8) (hk : k < 3) :
    (w <<< (3 * n)).getLsbD (3 * b + k) = (decide (n ≤ b) && w.getLsbD (3 * (b - n) + k)) := by
  rw [BitVec.getLsbD_shiftLeft]
  by_cases hn : n ≤ b
  · have hsub : 3 * b + k - 3 * n = 3 * (b - n) + k := by omega
    simp [hn, hsub, show 3 * b + k < 24 by omega, show ¬ 3 * b + k < 3 * n by omega]
  · simp [hn, show 3 * b + k < 3 * n by omega]

/-- A nibble's encoding in an encoded channel's width fills the four low groups and no other. -/
theorem getLsbD_setWidth_encNibble (c : Cfg) (n : BitVec 4) {b k : Nat} (hb : b < 8) (hk : k < 3) :
    ((encNibble c n).setWidth 24).getLsbD (3 * b + k) =
      (decide (b < 4) && (pulseCode c (n.getLsbD b)).getLsbD k) := by
  have h24 : 3 * b + k < 24 := by omega
  rw [BitVec.getLsbD_setWidth, decide_eq_true h24, Bool.true_and]
  by_cases hlow : b < 4
  · rw [getLsbD_encNibble c n hlow hk, decide_eq_true hlow, Bool.true_and]
  · rw [BitVec.getLsbD_of_ge _ _ (by omega), decide_eq_false hlow, Bool.false_and]

/-- ENC by nibbles (rule R75). -/
theorem enc_eq_nibbles (c : Cfg) (v : Byte) : enc c v =
    ((encNibble c (v.extractLsb' 4 4)).setWidth 24 <<< 12) ||| (encNibble c (v.extractLsb' 0 4)).setWidth 24 := by
  refine enc_eq_of_codes fun b k hb hk => ?_
  rw [BitVec.getLsbD_or, getLsbD_shiftLeft_groups _ 4 hb hk, getLsbD_setWidth_encNibble c _ (by omega) hk,
    getLsbD_setWidth_encNibble c _ hb hk]
  by_cases hlow : b < 4
  · simp [hlow, show ¬ 4 ≤ b by omega]
  · have hbit : 4 + (b - 4) = b := by omega
    simp [hlow, hbit, show 4 ≤ b by omega, show b - 4 < 4 by omega]

/-! ### The reference codes (rules R74, R76) -/

theorem getLsbD_pulseCode_cfg (p : Bool) : (pulseCode cfg p).getLsbD 2 = true ∧
    (pulseCode cfg p).getLsbD 1 = p ∧ (pulseCode cfg p).getLsbD 0 = false := by
  cases p
  · exact ⟨rfl, rfl, rfl⟩
  · exact ⟨rfl, rfl, rfl⟩

section
variable (v : Byte) {b : Nat} (hb : b < 8)
include hb

theorem getLsbD_enc_cfg_top : (enc cfg v).getLsbD (3 * b + 2) = true :=
  (getLsbD_enc cfg v hb (by decide)).trans (getLsbD_pulseCode_cfg _).1

theorem getLsbD_enc_cfg_middle : (enc cfg v).getLsbD (3 * b + 1) = v.getLsbD b :=
  (getLsbD_enc cfg v hb (by decide)).trans (getLsbD_pulseCode_cfg _).2.1

theorem getLsbD_enc_cfg_bottom : (enc cfg v).getLsbD (3 * b) = false :=
  (getLsbD_enc cfg v (k := 0) hb (by decide)).trans (getLsbD_pulseCode_cfg _).2.2

end

/-- The loop of `spread` (rule R74) after the source bits 0 to n-1. -/
def spreadUpTo (v : Byte) (n : Nat) : EncodedChannel :=
  (List.range n).foldl (fun w b => w ||| ((BitVec.ofBool (v.getLsbD b)).setWidth 24 <<< (3 * b))) 0

theorem spreadUpTo_eight (v : Byte) : spreadUpTo v 8 = spread v := rfl

theorem spreadUpTo_succ (v : Byte) (n : Nat) :
    spreadUpTo v (n + 1) = spreadUpTo v n ||| ((BitVec.ofBool (v.getLsbD n)).setWidth 24 <<< (3 * n)) := by
  simp [spreadUpTo, List.range_succ]

/-- A source bit stands in the middle of its code; the rest of the code is that of a clear bit. -/
theorem setWidth_pulseCode_cfg (p : Bool) : (pulseCode cfg p).setWidth 24 =
    (pulseCode cfg false).setWidth 24 ||| ((BitVec.ofBool p).setWidth 24 <<< 1) := by
  cases p
  · rfl
  · rfl

theorem encUpTo_cfg_eq (v : Byte) (n : Nat) :
    encUpTo cfg v n = encUpTo cfg 0 n ||| (spreadUpTo v n <<< 1) := by
  induction n with
  | zero => simp [encUpTo, spreadUpTo]
  | succ n ih =>
    have hshift (x : EncodedChannel) : x <<< 1 <<< (3 * n) = x <<< (3 * n) <<< 1 := by
      rw [← BitVec.shiftLeft_add, ← BitVec.shiftLeft_add, Nat.add_comm]
    simp only [encUpTo, spreadUpTo_succ, ih, setWidth_pulseCode_cfg (v.getLsbD n), BitVec.ofNat_eq_ofNat,
      BitVec.getLsbD_zero, BitVec.shiftLeft_or_distrib, hshift]
    ac_rfl

theorem pulseCode_cfg_or (p q : Bool) : pulseCode cfg (p || q) = pulseCode cfg p ||| pulseCode cfg q := by
  revert p q
  decide

theorem pulseCode_cfg_and (p q : Bool) : pulseCode cfg (p && q) = pulseCode cfg p &&& pulseCode cfg q := by
  revert p q
  decide

theorem enc_cfg_or (a b : Byte) : enc cfg (a ||| b) = enc cfg a ||| enc cfg b :=
  enc_eq_of_codes fun j k hj hk => by
    rw [BitVec.getLsbD_or, getLsbD_enc cfg a hj hk, getLsbD_enc cfg b hj hk, BitVec.getLsbD_or, pulseCode_cfg_or,
      BitVec.getLsbD_or]

theorem enc_cfg_and (a b : Byte) : enc cfg (a &&& b) = enc cfg a &&& enc cfg b :=
  enc_eq_of_codes fun j k hj hk => by
    rw [BitVec.getLsbD_and, getLsbD_enc cfg a hj hk, getLsbD_enc cfg b hj hk, BitVec.getLsbD_and, pulseCode_cfg_and,
      BitVec.getLsbD_and]

/-! ### Counting bits, bytes -/

/-- The set bits of the first n groups are their top bits and the source bits (rule R74). -/
theorem countP_enc_cfg (v : Byte) {n : Nat} (hn : n ≤ 8) :
    (List.range (3 * n)).countP (fun k => (enc cfg v).getLsbD k) =
      n + (List.range n).countP (fun k => v.getLsbD k) := by
  induction n with
  | zero => rfl
  | succ n ih =>
    have hb : n < 8 := hn
    simp only [Nat.mul_succ, List.range_succ, List.countP_append, List.countP_singleton, ih hb.le,
      getLsbD_enc_cfg_top v hb, getLsbD_enc_cfg_middle v hb, getLsbD_enc_cfg_bottom v hb,
      if_true, if_false, Bool.false_eq_true]
    omega

theorem zero_ne_of_getLsbD {n : Nat} {x : BitVec n} {k : Nat} (h : x.getLsbD k = true) : 0 ≠ x := by
  rintro rfl
  simp at h

/-- Each byte of an encoded channel holds the top bit of a group: of group 7, of group 2, of group 0. -/
theorem zero_notMem_be3_enc (v : Byte) : (0 : Byte) ∉ be3 (enc cfg v) := by
  have h7 := getLsbD_enc_cfg_top v (b := 7) (by decide)
  have h2 := getLsbD_enc_cfg_top v (b := 2) (by decide)
  have h0 := getLsbD_enc_cfg_top v (b := 0) (by decide)
  have hhigh : 0 ≠ (enc cfg v).extractLsb' 16 8 := zero_ne_of_getLsbD (k := 7) (by simpa using h7)
  have hmid : 0 ≠ (enc cfg v).extractLsb' 8 8 := zero_ne_of_getLsbD (k := 0) (by simpa using h2)
  have hlow : 0 ≠ (enc cfg v).extractLsb' 0 8 := zero_ne_of_getLsbD (k := 2) (by simpa using h0)
  simp only [be3, List.mem_cons, List.not_mem_nil, hhigh, hmid, hlow, or_self, not_false_eq_true]

/-! ### Order -/

/-- The greater number has the highest bit in which the two differ. -/
theorem exists_top_bit_of_lt {m n : Nat} (h : m < n) :
    ∃ i, m.testBit i = false ∧ n.testBit i = true ∧ ∀ j, i < j → m.testBit j = n.testBit j := by
  obtain ⟨i, hi, habove⟩ := Nat.exists_most_significant_bit (mt Nat.xor_eq_zero_iff.1 h.ne)
  simp only [Nat.testBit_xor, bne_iff_ne, bne_eq_false_iff_eq] at hi habove
  cases hm : m.testBit i with
  | false => exact ⟨i, hm, by simpa [hm] using hi.symm, habove⟩
  | true =>
    have hn : n.testBit i = false := by simpa [hm] using hi.symm
    exact absurd (Nat.lt_of_testBit i hn hm fun j hj => (habove j hj).symm) h.asymm

/-- Bytes that agree above bit i have encodings that agree above the source bit of group i: what is there besides higher
groups is the top bit of group i, which is set in both. -/
theorem getLsbD_enc_cfg_above {a b : Byte} {i j : Nat} (hi : i < 8)
    (habove : ∀ l, i < l → a.getLsbD l = b.getLsbD l) (hj : 3 * i + 1 < j) :
    (enc cfg a).getLsbD j = (enc cfg b).getLsbD j := by
  by_cases hj24 : j < 24
  · rcases Nat.lt_or_ge i (j / 3) with hlt | hle
    · have hb : j / 3 < 8 := by omega
      have hk : j % 3 < 3 := Nat.mod_lt j (by decide)
      rw [← Nat.div_add_mod j 3, getLsbD_enc cfg a hb hk, getLsbD_enc cfg b hb hk, habove _ hlt]
    · have htop : j = 3 * i + 2 := by omega
      rw [htop, getLsbD_enc_cfg_top a hi, getLsbD_enc_cfg_top b hi]
  · rw [BitVec.getLsbD_of_ge _ _ (by omega), BitVec.getLsbD_of_ge _ _ (by omega)]

/-- The top bit in which two bytes differ stands in the top group in which their encodings differ. -/
theorem enc_cfg_lt {a b : Byte} (h : a < b) : enc cfg a < enc cfg b := by
  obtain ⟨i, hai, hbi, habove⟩ := exists_top_bit_of_lt (BitVec.lt_def.1 h)
  simp only [BitVec.testBit_toNat] at hai hbi habove
  have hi : i < 8 := BitVec.lt_of_getLsbD hbi
  refine BitVec.lt_def.2 (Nat.lt_of_testBit (3 * i + 1) ?_ ?_ fun j hj => ?_)
  · rw [BitVec.testBit_toNat, getLsbD_enc_cfg_middle a hi, hai]
  · rw [BitVec.testBit_toNat, getLsbD_enc_cfg_middle b hi, hbi]
  · rw [BitVec.testBit_toNat, BitVec.testBit_toNat, getLsbD_enc_cfg_above hi habove hj]

end Sys2Proof.Machine

/-! ### The obligations -/

namespace Sys2Proof.Proofs

open Sys2Proof.Machine

/-- Settles O7: group b of ENC(v) is the code of bit b, and the codes differ. -/
theorem encGroupsDecode : Obligations.EncGroupsDecode := by
  intro c hc
  refine ⟨fun v b hb => ?_, dec_enc hc, fun u v h => ?_⟩
  · rw [group_enc c v hb]
    exact ⟨pulseCode_eq_one_or_zero c _, pulseCode_eq_one_iff hc _⟩
  · rw [← dec_enc hc u, h, dec_enc hc v]

/-- Settles O8: both sides hold the code of bit b in group b. -/
theorem encIsConcatenation : Obligations.EncIsConcatenation := enc_eq_append

/-- Settles O10: in each group with the reference codes only the source bit varies. -/
theorem encKeepsOrderAndBitwise : Obligations.EncKeepsOrderAndBitwise :=
  fun a b => ⟨enc_cfg_lt, enc_cfg_or a b, enc_cfg_and a b⟩

/-- Settles O12: a set slot is three encoded channels, of which no byte is zero. -/
theorem setSlotHasNoZeroByte : Obligations.SetSlotHasNoZeroByte := by
  refine ⟨fun r g b => ?_, by decide, by decide⟩
  simp only [slotData, List.mem_append, zero_notMem_be3_enc, or_self, not_false_eq_true]

/-- Settles O9: the closed form from the loop's, the count and the bytes from the bits of each group. -/
theorem encClosedForms : Obligations.EncClosedForms := by
  refine ⟨fun v => ?_,
    fun v b hb => ⟨getLsbD_enc_cfg_top v hb, getLsbD_enc_cfg_middle v hb, getLsbD_enc_cfg_bottom v hb⟩,
    fun v => countP_enc_cfg v le_rfl, zero_notMem_be3_enc, by decide, by decide, by decide, by decide⟩
  have hzero : encUpTo cfg 0 8 = 0x924924#24 := by decide
  rw [enc, encUpTo_cfg_eq, hzero, spreadUpTo_eight]

/-- Settles O11: the table by evaluation, ENC by the groups of its nibbles. -/
theorem encByNibbles : Obligations.EncByNibbles := ⟨by decide, enc_eq_nibbles cfg⟩

end Sys2Proof.Proofs
end

section
/-! PROOFS. The commands of the strip buffer (41_strip_buffer_ops.md): CONSTRUCT answer by answer (rules R81 to R83),
the slot write (rules R84 to R86), both steps of COMMIT (rules R87 to R90), RELEASE (rule R91) and the
phases (rule R92). -/

namespace Sys2Proof.Machine

variable {c : Cfg} {n : Nat} {s : State} {x : Session} {rest : List Answer}

/-! ### CONSTRUCT, request by request -/

/-- In UNBUILT with an admitted LED count CONSTRUCT goes on to the open (rule R81). -/
theorem construct_of_admitted (hp : s.phase = .unbuilt) (hn : LedCountOk c n) :
    construct c n s = constructOpen c n s := by
  simp [construct, hp, hn]

theorem constructOpen_of_ok (ha : s.answers = .ok :: rest) : constructOpen c n s =
    constructClock c n { s with out := s.out ++ [.openDevice Config.devicePath], answers := rest } := by
  simp only [constructOpen, State.ask_of_cons (s := s.emit _) ha]
  rfl

theorem constructOpen_of_fail (ha : s.answers = .fail :: rest) : constructOpen c n s =
    refused s [.openDevice Config.devicePath] s.clk .deviceUnavailable rest s.draws := by
  simp only [constructOpen, State.ask_of_cons (s := s.emit _) ha]
  rfl

theorem constructClock_of_ok (ha : s.answers = .ok :: rest) : constructClock c n s =
    constructMap c n { s with clk := c.clockHz, out := s.out ++ [.setClock c.clockHz], answers := rest } := by
  simp only [constructClock, State.ask_of_cons (s := s.emit _) ha]
  rfl

theorem constructClock_of_fail (ha : s.answers = .fail :: rest) : ∃ cs hz k, CloseOrNone cs ∧
    constructClock c n s = refused s (.setClock c.clockHz :: cs) hz .configurationError rest k := by
  simp only [constructClock, State.ask_of_cons (s := s.emit _) ha, State.raise_eq]
  obtain ⟨cs, hcs, habandon⟩ := State.abandon_cases
    (State.loseClk { s with out := s.out ++ [.setClock c.clockHz], answers := rest })
  exact ⟨cs, Config.freeClock s.draws, s.draws + 1 + 1, hcs,
    (congrArg (State.finish · .configurationError) habandon).trans (by simp [State.finish])⟩

theorem constructMap_of_ok (ha : s.answers = .ok :: rest) : constructMap c n s =
    (State.beginSession { s with out := s.out ++ [.mapBuffer (bufLen c n)], answers := rest } n).finish .ok := by
  simp only [constructMap, State.ask_of_cons (s := s.emit _) ha]
  rfl

theorem constructMap_of_fail (ha : s.answers = .fail :: rest) : ∃ cs k, CloseOrNone cs ∧
    constructMap c n s = refused s (.mapBuffer (bufLen c n) :: cs) s.clk .deviceUnavailable rest k := by
  simp only [constructMap, State.ask_of_cons (s := s.emit _) ha, State.raise_eq]
  obtain ⟨cs, hcs, habandon⟩ := State.abandon_cases
    { s with out := s.out ++ [.mapBuffer (bufLen c n)], answers := rest }
  exact ⟨cs, s.draws + 1, hcs,
    (congrArg (State.finish · .deviceUnavailable) habandon).trans (by simp [State.finish])⟩

/-- Three ok answers open the session (rule R81). -/
theorem construct_of_three_ok (hp : s.phase = .unbuilt) (hn : LedCountOk c n)
    (ha : s.answers = .ok :: .ok :: .ok :: rest) :
    construct c n s = opened c n s (openEvents c n) s.draws rest (s.draws + 1) := by
  rw [construct_of_admitted hp hn, constructOpen_of_ok ha, constructClock_of_ok rfl, constructMap_of_ok rfl]
  simp [State.beginSession, State.setPhase, State.drew, State.finish, openEvents]

/-- The answers that refuse a CONSTRUCT, each with its result (rules R121, R122). -/
abbrev Refuses (l rest : List Answer) (r : Result) : Prop :=
  l = .fail :: rest ∧ r = .deviceUnavailable ∨ l = .ok :: .fail :: rest ∧ r = .configurationError ∨
    l = .ok :: .ok :: .fail :: rest ∧ r = .deviceUnavailable

/-- Each refusal ends the session with its result, after the requests made so far (rules R83, R121, R122). -/
theorem construct_of_refuses {r : Result} (hp : s.phase = .unbuilt) (hn : LedCountOk c n)
    (ha : Refuses s.answers rest r) : ∃ es cs hz k, es <+: openEvents c n ∧ CloseOrNone cs ∧
      construct c n s = refused s (es ++ cs) hz r rest k := by
  rw [construct_of_admitted hp hn]
  rcases ha with ⟨ha, rfl⟩ | ⟨ha, rfl⟩ | ⟨ha, rfl⟩
  · -- at the open
    exact ⟨[.openDevice Config.devicePath], [], _, _, by simp [openEvents], .inl rfl, constructOpen_of_fail ha⟩
  · -- at the clock
    rw [constructOpen_of_ok ha]
    obtain ⟨cs, hz, k, hcs, he⟩ := constructClock_of_fail (c := c) (n := n) (rest := rest)
      (s := { s with out := s.out ++ [.openDevice Config.devicePath], answers := .fail :: rest }) rfl
    exact ⟨[.openDevice Config.devicePath, .setClock c.clockHz], cs, hz, k, by simp [openEvents], hcs,
      he.trans (by simp)⟩
  · -- at the mapping
    rw [constructOpen_of_ok ha, constructClock_of_ok rfl]
    obtain ⟨cs, k, hcs, he⟩ := constructMap_of_fail (c := c) (n := n) (rest := rest)
      (s := { s with
        clk := c.clockHz
        out := s.out ++ [.openDevice Config.devicePath] ++ [.setClock c.clockHz]
        answers := .fail :: rest }) rfl
    exact ⟨openEvents c n, cs, c.clockHz, k, List.prefix_refl _, hcs, he.trans (by simp [openEvents])⟩

/-- LED_COUNT's check on this hardware, in numbers (rule R82). -/
theorem ledCountOk_cfg (hn : 1 ≤ n) (h : 9 * (n + 4) < 2 ^ cfg.wordW) : LedCountOk cfg n :=
  ⟨hn, bufLen_cfg n ▸ h⟩

/-! ### The bytes of IMG -/

theorem Session.imgByte_of_lt {k : Nat} (hk : k < x.bufLen c) : x.imgByte c k = some (Memory.read x.img k) :=
  if_pos hk

theorem Session.imgByte_of_le {k : Nat} (hk : x.bufLen c ≤ k) : x.imgByte c k = none :=
  if_neg hk.not_gt

/-- IMG read as a whole is its bytes, address by address. -/
theorem Session.getElem?_readBytes_img (c : Cfg) (x : Session) (k : Nat) :
    (Memory.readBytes x.img 0 (x.bufLen c))[k]? = x.imgByte c k := by
  rcases lt_or_ge k (x.bufLen c) with hk | hk
  · rw [Session.imgByte_of_lt hk, List.getElem?_eq_getElem (by simpa using hk), Memory.getElem_readBytes _ _ _ _ hk,
      Nat.zero_add]
  · rw [Session.imgByte_of_le hk, List.getElem?_eq_none (by simpa using hk)]

/-! ### The slot write -/

/-- The session after colour (r, g, b) went into the slot of LED i (rule R84). -/
abbrev Session.colour (c : Cfg) (x : Session) (i : Nat) (r g b : Byte) : Session :=
  { x with img := Memory.writeBytes x.img (slotBase c i) (slotData c r g b) }

section
variable {i j : Nat} (r g b r' g' b' : Byte)

theorem setColour_of_ne (hp : ∀ x, s.phase ≠ .usable x) :
    setColour c i r g b s = .next (s.finish .notUsable) :=
  State.whenUsable_of_ne _ hp

theorem setColour_of_le (hp : s.phase = .usable x) (hi : x.ledCount ≤ i) :
    setColour c i r g b s = .next (s.finish .invalidIndex) := by
  rw [setColour, State.whenUsable_of_usable _ hp, if_neg hi.not_gt, State.raise_eq]

theorem setColour_of_lt (hp : s.phase = .usable x) (hi : i < x.ledCount) :
    setColour c i r g b s = .next (coloured c s x i r g b) := by
  rw [setColour, State.whenUsable_of_usable _ hp, if_pos hi, Session.store_slot c x r g b hi]
  rfl

theorem exec_setc_of_lt (hp : s.phase = .usable x) (hi : i < x.ledCount) :
    exec (.setc i r g b) s = .next (coloured cfg s x i r g b) :=
  setColour_of_lt r g b hp hi

/-- What the slot write does to every byte of IMG (rule R84). -/
theorem Session.imgByte_colour (hi : i < x.ledCount) (k : Nat) : (x.colour c i r g b).imgByte c k =
    if InSlot c i k then (slotData c r g b)[k - slotBase c i]? else x.imgByte c k := by
  by_cases hk : InSlot c i k
  · obtain ⟨hslot, hpad⟩ := slot_inside c hi
    have hinside : k < (x.colour c i r g b).bufLen c := (hk.2.trans_le hslot).trans_le hpad
    have hlen : k - slotBase c i < (slotData c r g b).length := by
      have := hk.2
      rw [length_slotData]
      simp only [slotBytes] at this
      omega
    rw [if_pos hk, Session.imgByte_of_lt hinside, Memory.read_store_slot, if_pos hk, List.getD_eq_getElem _ _ hlen,
      List.getElem?_eq_getElem hlen]
  · rw [if_neg hk, Session.imgByte, Session.imgByte, Memory.read_store_slot, if_neg hk]
    rfl

/-- The slot write and its frame, in the terms of rule R84. -/
theorem setColour_stores (hp : s.phase = .usable x) (hi : i < x.ledCount) : ∃ m : Memory,
    setColour c i r g b s = .next { s with
      phase := .usable { x with img := m }, results := s.results ++ [.ok] } ∧
    ∀ k, ({ x with img := m } : Session).imgByte c k =
      if 9 * (c.leadOffset + i) ≤ k ∧ k < 9 * (c.leadOffset + i) + 9 then
        (be3 (enc c g) ++ be3 (enc c r) ++ be3 (enc c b))[k - 9 * (c.leadOffset + i)]?
      else x.imgByte c k :=
  ⟨_, setColour_of_lt r g b hp hi, Session.imgByte_colour r g b hi⟩

/-- Stores into the slots of two LEDs may come in either order (rule R85 d). -/
theorem writeBytes_slots_comm {m : Memory} (hm : Memory.wf m = true) (hij : i ≠ j) :
    Memory.writeBytes (Memory.writeBytes m (slotBase c i) (slotData c r g b)) (slotBase c j) (slotData c r' g' b') =
      Memory.writeBytes (Memory.writeBytes m (slotBase c j) (slotData c r' g' b')) (slotBase c i)
        (slotData c r g b) := by
  refine Memory.ext_of_wf (Memory.wf_writeBytes _ _ (Memory.wf_writeBytes _ _ hm))
    (Memory.wf_writeBytes _ _ (Memory.wf_writeBytes _ _ hm)) fun k => ?_
  simp only [Memory.read_store_slot]
  by_cases hj : InSlot c j k
  · rw [if_pos hj, if_neg (not_inSlot_of_ne hij hj), if_pos hj]
  · rw [if_neg hj, if_neg hj]

/-- Of two stores into the slot of one LED the second alone counts (rule R85 c). -/
theorem writeBytes_slot_overwrites {m : Memory} (hm : Memory.wf m = true) :
    Memory.writeBytes (Memory.writeBytes m (slotBase c i) (slotData c r g b)) (slotBase c i) (slotData c r' g' b') =
      Memory.writeBytes m (slotBase c i) (slotData c r' g' b') := by
  refine Memory.ext_of_wf (Memory.wf_writeBytes _ _ (Memory.wf_writeBytes _ _ hm)) (Memory.wf_writeBytes _ _ hm)
    fun k => ?_
  simp only [Memory.read_store_slot]
  by_cases hk : InSlot c i k
  · rw [if_pos hk, if_pos hk]
  · rw [if_neg hk, if_neg hk, if_neg hk]

end

/-! ### The image of the end-to-end scenario (rule R96) -/

/-- One LED, red 40: a zero slot, the LED's, three zero slots. -/
def redLedFrame : List Byte :=
  List.replicate 9 0 ++ [0x92, 0x49, 0x24, 0x93, 0x4D, 0x24, 0x92, 0x49, 0x24] ++ List.replicate 27 0

theorem readBytes_redLedImage :
    Memory.readBytes (Memory.writeBytes [] (slotBase cfg 0) (slotData cfg 40 0 0)) 0 (bufLen cfg 1) = redLedFrame := by
  decide

/-! ### Both steps of COMMIT -/

/-- Under every configuration COMMIT in USABLE publishes IMG (rule R87, step 1). -/
theorem commit_of_usable (c : Cfg) (hp : s.phase = .usable x) : commit c s = .next (published c s x) := by
  rw [commit, State.whenUsable_of_usable _ hp, publishImage, Session.publish, Hwr.payload_copied]
  rfl

/-- Under every configuration an answer listed is the step after COMMIT's first (rule R87, step 2). -/
theorem stepUnder_published (c : Cfg) (x : Session) {a : Answer} (hsym : s.symbols = []) (ha : s.answers = a :: rest) :
    stepUnder c (published c s x) =
      .next (answerTransfer c (x.publish c) a { published c s x with answers := rest }) := by
  have hf : (published c s x).inFlight = some (x.publish c) :=
    State.inFlight_eq_some.2 ⟨rfl, Option.some_ne_none _⟩
  have hmove : (published c s x).nextMove = .answer (x.publish c) a { published c s x with answers := rest } := by
    simp [State.nextMove, hsym, hf, ha]
  exact runMove_of_answer hmove

/-- The bits of a COMMIT the DEVICE answers ok are what it shifts for IMG's bytes (rule R100). -/
theorem bitsSent_publish_ok (c : Cfg) (x : Session) (d : Nat) :
    bitsSent c (x.publish c) d .ok = shiftedBits c d (Memory.readBytes x.img 0 (x.bufLen c)) :=
  congrArg (shiftedBits c d) (Hwr.payload_copied _ _)

/-- The bits of a COMMIT the DEVICE answers fail are the first so many of those (rules R88, R109). -/
theorem bitsSent_publish_fail (c : Cfg) (x : Session) (d : Nat) :
    bitsSent c (x.publish c) d .fail <+: shiftedBits c d (Memory.readBytes x.img 0 (x.bufLen c)) :=
  bitsSent_publish_ok c x d ▸ List.take_prefix _ _

/-! ### The phase table -/

/-- Outside USABLE every command of a session has the cell NotUsable in its own phase (rules R92, R126). -/
theorem notUsable_mem_phaseTable {p : Phase} {i : Instr} (hp : ∀ x, p ≠ .usable x)
    (hi : Instr.IsSetter i ∨ i = .commit ∨ i = .release) : (p.name, some .notUsable) ∈ phaseTable p.name i := by
  cases p with
  | usable x => exact absurd rfl (hp x)
  | unbuilt => rcases hi with (⟨j, r, g, b, rfl⟩ | ⟨j, q, rfl⟩) | rfl | rfl <;> exact List.mem_singleton.2 rfl
  | released => rcases hi with (⟨j, r, g, b, rfl⟩ | ⟨j, q, rfl⟩) | rfl | rfl <;> exact List.mem_singleton.2 rfl

/-- Outside UNBUILT CONSTRUCT has the cell NotUsable in its own phase (rules R92, R126). -/
theorem notUsable_mem_phaseTable_construct {p : Phase} (hp : p ≠ .unbuilt) (n : Nat) :
    (p.name, some .notUsable) ∈ phaseTable p.name (.construct n) := by
  cases p with
  | unbuilt => exact absurd rfl hp
  | usable x => exact List.mem_singleton.2 rfl
  | released => exact List.mem_singleton.2 rfl

/-- The outcome is a cell of the phase table for instruction i in the phase of s (rule R92). -/
def FollowsTable (i : Instr) (s : State) (o : Host.Outcome State Fault Refusal) : Prop :=
  ∃ t r, o = .next t ∧ (t.phase.name, r) ∈ phaseTable s.phase.name i ∧ t.results = s.results ++ r.toList

theorem construct_followsTable (c : Cfg) (n : Nat) (s : State) :
    FollowsTable (.construct n) s (.next (construct c n s)) := by
  rcases construct_cases c n s with ⟨hp, he⟩ | ⟨hp, -, he⟩ | ⟨hp, -, d, l, k, he⟩ |
    ⟨hp, -, es, cs, hz, r, l, k, -, -, hr, he⟩
  · exact ⟨_, some .notUsable, rfl, by rw [he]; exact notUsable_mem_phaseTable_construct hp n, by rw [he]; rfl⟩
  · exact ⟨_, some .invalidLedCount, rfl, by simp [he, hp, Phase.name, phaseTable], by rw [he]; rfl⟩
  · exact ⟨_, some .ok, rfl, by simp [he, hp, Phase.name, phaseTable], by rw [he]; rfl⟩
  · refine ⟨_, some r, rfl, ?_, by rw [he]; rfl⟩
    rcases hr with rfl | rfl
    · simp [he, hp, Phase.name, phaseTable]
    · simp [he, hp, Phase.name, phaseTable]

/-- Both setters have the same cells (rule R92). -/
theorem setColour_followsTable (c : Cfg) (j : Nat) (r g b : Byte) (s : State) {i : Instr} (hi : Instr.IsSetter i) :
    FollowsTable i s (setColour c j r g b s) := by
  have cells : phaseTable .usable i = [(.usable, some .ok), (.usable, some .invalidIndex)] := by
    rcases hi with ⟨_, _, _, _, rfl⟩ | ⟨_, _, rfl⟩
    · rfl
    · rfl
  rcases setColour_cases c j r g b s with ⟨hp, he⟩ | ⟨x, hp, -, he⟩ | ⟨x, hp, -, he⟩
  · exact ⟨_, some .notUsable, he, notUsable_mem_phaseTable hp (.inl hi), rfl⟩
  · exact ⟨_, some .invalidIndex, he, by simp [hp, Phase.name, cells], rfl⟩
  · exact ⟨_, some .ok, he, by simp [hp, Phase.name, cells], rfl⟩

theorem commit_followsTable (c : Cfg) (s : State) : FollowsTable .commit s (commit c s) := by
  rcases commit_cases c s with ⟨hp, he⟩ | ⟨x, hp, he⟩
  · exact ⟨_, some .notUsable, he, notUsable_mem_phaseTable hp (.inr (.inl rfl)), rfl⟩
  · exact ⟨_, none, he, by simp [hp, Phase.name, phaseTable], by simp⟩

theorem execRelease_followsTable (s : State) : FollowsTable .release s (execRelease s) := by
  rcases execRelease_cases s with ⟨hp, he⟩ | ⟨x, hp, he⟩
  · exact ⟨_, some .notUsable, he, notUsable_mem_phaseTable hp (.inr (.inr rfl)), rfl⟩
  · exact ⟨_, some .ok, he, by simp [hp, Phase.name, phaseTable], rfl⟩

/-- A symbol leaves the phase and returns no result (log entry 11). -/
theorem driveSymbol_followsTable (s : State) (k : PulseCode) {i : Instr} (hi : i = .zero ∨ i = .one) :
    FollowsTable i s (.next (s.driveSymbol k)) := by
  refine ⟨_, none, rfl, ?_, (List.append_nil _).symm⟩
  rcases hi with rfl | rfl
  · cases hp : s.phase <;> simp [hp, Phase.name, phaseTable]
  · cases hp : s.phase <;> simp [hp, Phase.name, phaseTable]

/-- Under every configuration every instruction follows the phase table (rule R92). -/
theorem execUnder_followsTable (c : Cfg) (i : Instr) (s : State) : FollowsTable i s (execUnder c i s) := by
  cases i with
  | construct n => exact construct_followsTable c n s
  | setc j r g b => exact setColour_followsTable c j r g b s (.inl ⟨j, r, g, b, rfl⟩)
  | setp j p => exact setColour_followsTable c j _ _ _ s (.inr ⟨j, p, rfl⟩)
  | commit => exact commit_followsTable c s
  | release => exact execRelease_followsTable s
  | zero => exact driveSymbol_followsTable s _ (.inl rfl)
  | one => exact driveSymbol_followsTable s _ (.inr rfl)

end Sys2Proof.Machine

/-! ### The obligations -/

namespace Sys2Proof.Proofs

open Sys2Proof.Machine

/-- Settles O20: a refused CONSTRUCT emits only requests of a successful one, and perhaps Close. -/
theorem refusedConstructIsFatal : Obligations.RefusedConstructIsFatal := by
  intro s n rest r hp hn hlen ha
  obtain ⟨es, cs, hz, k, hes, hcs, he⟩ := construct_of_refuses hp (ledCountOk_cfg hn hlen) ha
  refine ⟨_, es ++ cs, congrArg Host.Outcome.next he, rfl, rfl, rfl, fun d p hd => ?_, rfl, rfl, rfl, rfl, rfl⟩
  rcases mem_refusedEvents hes hcs hd with hd | hd
  · exact transfer_not_mem_openEvents d p hd
  · cases hd

/-- Settles O23, by the four ways a CONSTRUCT can end. -/
theorem constructFrame : Obligations.ConstructFrame := by
  intro n s
  rcases construct_cases cfg n s with ⟨hp, he⟩ | ⟨hp, -, he⟩ | ⟨hp, -, d, l, k, he⟩ |
    ⟨hp, -, es, cs, hz, r, l, k, -, -, hr, he⟩
  · exact ⟨_, congrArg Host.Outcome.next he, rfl, rfl, rfl, rfl, .notUsable, rfl, by simp,
      by simp [Result.fatal, hp]⟩
  · exact ⟨_, congrArg Host.Outcome.next he, rfl, rfl, rfl, rfl, .invalidLedCount, rfl, by simp,
      by simp [Result.fatal, hp]⟩
  · exact ⟨_, congrArg Host.Outcome.next he, rfl, rfl, rfl, rfl, .ok, rfl, fun _ => rfl, by simp [Result.fatal]⟩
  · refine ⟨_, congrArg Host.Outcome.next he, rfl, rfl, rfl, rfl, r, rfl, ?_⟩
    rcases hr with rfl | rfl
    · simp [Result.fatal, hp]
    · simp [Result.fatal, hp]

/-- Settles O24: the decoder's row for SETC, then each outcome of the slot write. -/
theorem setcWritesItsSlot : Obligations.SetcWritesItsSlot := by
  refine ⟨fun w hw => ?_, fun s i r g b => ?_⟩
  · obtain ⟨-, hsetc, -⟩ := wordIsCommandIffRowMatches w
    exact (hsetc _ _ _ _).2 ⟨hw, rfl, rfl, rfl, rfl⟩
  · exact ⟨setColour_of_ne r g b, fun x => setColour_of_le r g b, fun x => setColour_stores r g b⟩

/-- Settles O25: SETP is the slot write of UNPACK's colour. -/
theorem setpWritesItsSlot : Obligations.SetpWritesItsSlot :=
  fun _ _ _ => ⟨rfl, fun _ => setColour_stores _ _ _⟩

/-- Settles O28: slots share no byte, a store overwrites all of its slot, and in canonical form equal bytes are equal
images. -/
theorem setcsCommuteAndOverwrite : Obligations.SetcsCommuteAndOverwrite := by
  intro s x i j r g b r' g' b' hp hm hi hj
  refine ⟨_, _, _, _, exec_setc_of_lt r g b hp hi, exec_setc_of_lt r' g' b' (x := x.colour cfg i r g b) rfl hj,
    exec_setc_of_lt r' g' b' hp hj, exec_setc_of_lt r g b (x := x.colour cfg j r' g' b') rfl hi, fun hij => ?_, ?_⟩
  · simp only [coloured, writeBytes_slots_comm r g b r' g' b' hm hij]
    rfl
  · rintro rfl
    simp only [coloured, State.finish_phase, State.setPhase_phase,
      writeBytes_slot_overwrites r g b r' g' b' hm]

/-- Settles O29: CONSTRUCT leaves IMG zero, and SETC writes its slot alone. -/
theorem freshBufferHoldsOneSlot : Obligations.FreshBufferHoldsOneSlot := by
  intro s n i r g b rest hp hn hlen ha hi
  have hopen := construct_of_three_ok hp (ledCountOk_cfg hn hlen) ha
  refine ⟨_, _, _, congrArg Host.Outcome.next hopen, exec_setc_of_lt r g b rfl hi, rfl, List.append_assoc .., ?_,
    fun k hk hslot => ?_⟩
  · rw [Nat.mul_comm]
    exact readBytes_stored_slot [] cfg i r g b
  · have hout : ¬ InSlot cfg i k := by
      rw [Nat.mul_comm] at hslot
      exact hslot
    rw [Session.imgByte_colour r g b hi, if_neg hout, Session.imgByte_of_lt hk, Memory.read_nil]

/-- Settles O32: the answer fail puts the beginning of the published IMG's frame on the line. -/
theorem failedCommitKeepsImage : Obligations.FailedCommitKeepsImage := by
  intro s x rest hw hsym hp ha
  have hanswer := stepUnder_published cfg x hsym ha
  refine ⟨_, _, _, _, _, exec_commit_of_usable hp, (step_eq _).trans hanswer, rfl, rfl, rfl, rfl, rfl, rfl, rfl, ?_⟩
  have hbits := bitsSent_publish_fail cfg x s.draws
  rwa [shiftedBits, if_pos hw] at hbits

/-- Settles O41, instruction by instruction; an answer and an illegal word by what they do. -/
theorem phasesFollowTheTable : Obligations.PhasesFollowTheTable := by
  refine ⟨fun i s => ?_, fun c x a s => ?_, fun w s => ⟨rfl, rfl⟩⟩
  · rw [exec_eq]
    exact execUnder_followsTable cfg i s
  · cases a with
    | ok => exact ⟨.ok, .inl rfl, rfl, rfl⟩
    | fail => exact ⟨.transferError, .inr rfl, rfl, rfl⟩

/-- Settles O45: what three ok answers make of CONSTRUCT. -/
theorem constructUnderEveryConfiguration : Obligations.ConstructUnderEveryConfiguration :=
  fun _ _ _ _ hp hn ha =>
    ⟨_, _, congrArg Host.Outcome.next (construct_of_three_ok hp hn ha), rfl, rfl, rfl, rfl, rfl, fun _ => rfl⟩

/-- Settles O46: both setters are the slot write. -/
theorem settersUnderEveryConfiguration : Obligations.SettersUnderEveryConfiguration :=
  fun _ _ _ _ hp hi => ⟨fun r g b => setColour_stores r g b hp hi, fun _ => rfl⟩

/-- Settles O47: the transfer's payload is IMG's bytes, and the answer ok puts their frame on the line. -/
theorem commitUnderEveryConfiguration : Obligations.CommitUnderEveryConfiguration := by
  intro c s x rest hsym hp ha
  refine ⟨_, _, _, Memory.readBytes x.img 0 (x.bufLen c), s.draws, commit_of_usable c hp,
    stepUnder_published c x hsym ha, Memory.length_readBytes _ _ _, x.getElem?_readBytes_img c, ?_, ?_, rfl, rfl, rfl, rfl⟩
  · rw [Memory.length_readBytes]
    rfl
  · rw [← bitsSent_publish_ok]
    rfl

/-- Settles O13: the next move is to run the code. -/
theorem stepRunsDecodedCode : Obligations.StepRunsDecodedCode := by
  refine ⟨fun s w rest i hsym hf hh hd => ?_, fun s k rest i hsym hd => ?_⟩
  · have hmove : s.nextMove = .run (.command w) { s with host := rest } := by simp [State.nextMove, hsym, hf, hh]
    exact (runMove_of_run hmove).1 i hd
  · have hmove : s.nextMove = .run (.symbol k) { s with symbols := rest } := by simp [State.nextMove, hsym]
    exact (runMove_of_run hmove).1 i hd

/-- Settles O15: the next move is to idle. -/
theorem unansweredTransferWaits : Obligations.UnansweredTransferWaits := by
  intro s x d hsym hp hx ha
  have hf : s.inFlight = some x := State.inFlight_eq_some.2 ⟨hp, by simp [hx]⟩
  have hidle : s.nextMove = .idle := by simp [State.nextMove, hsym, hf, ha]
  exact runMove_of_idle hidle

/-- Settles O19: what three ok answers make of CONSTRUCT, with this hardware's constants. -/
theorem constructOpensSession : Obligations.ConstructOpensSession := by
  intro s n rest hp hn hlen ha
  have hopen := construct_of_three_ok hp (ledCountOk_cfg hn hlen) ha
  exact ⟨{ ledCount := n, img := [], hwr := .drawn s.draws, xfer := none }, rfl, rfl, rfl,
    fun k hk => Session.imgByte_of_lt hk, fun k hk => Session.imgByte_of_le hk,
    congrArg Host.Outcome.next hopen⟩

/-- Settles O22, by arithmetic. -/
theorem ledCountBounds : Obligations.LedCountBounds := by
  refine ⟨fun c n => Iff.rfl, fun n => and_congr_right fun _ => ?_, fun n hn => and_iff_left ?_⟩
  · change 9 * (n + 1 + 3) < 2 ^ 32 ↔ _
    omega
  · change 9 * (n + 1 + 3) < 2 ^ 64
    omega

/-- Settles O30: COMMIT copies IMG to HWR and sends the copy's bytes. -/
theorem commitPublishesImage : Obligations.CommitPublishesImage :=
  fun _ x hp => ⟨x.publish cfg, _, exec_commit_of_usable hp, rfl, rfl, rfl, fun _ => rfl,
    Memory.length_readBytes _ _ _, x.getElem?_readBytes_img cfg⟩

/-- Settles O31, by the answer. -/
theorem answerEndsCommit : Obligations.AnswerEndsCommit := by
  intro s x d a rest hsym hp hx ha
  have hf : s.inFlight = some x := State.inFlight_eq_some.2 ⟨hp, by simp [hx]⟩
  refine ⟨_, _, step_of_answer hsym hf ha, rfl, rfl, rfl, rfl, ?_, rfl, rfl, rfl, rfl, hsym⟩
  cases a with
  | ok => rfl
  | fail => rfl

/-- Settles O34: the three commands in turn, then the parts of IMG. -/
theorem endToEndScenario : Obligations.EndToEndScenario := by
  intro s rest hp ha
  have hopen := construct_of_three_ok hp (ledCountOk_small le_rfl (by decide)) ha
  have hset := exec_setc_of_lt (x := { ledCount := 1, img := [], hwr := .drawn s.draws, xfer := none })
    (s := opened cfg 1 s (openEvents cfg 1) s.draws rest (s.draws + 1)) 40 0 0 rfl Nat.one_pos
  refine ⟨_, _, _, _, redLedFrame, congrArg Host.Outcome.next hopen, hset, exec_commit_of_usable rfl, rfl, ?_, ?_, rfl,
    rfl, rfl, rfl⟩
  · change Memory.readBytes _ (slotBase cfg 0) slotBytes = _
    rw [readBytes_stored_slot [] cfg 0 40 0 0, slotData]
  · simpa [openEvents, Session.bufLen] using ⟨bufLen_cfg 1, readBytes_redLedImage⟩

/-- Settles O38: RELEASE in USABLE and elsewhere. -/
theorem releaseEndsSession : Obligations.ReleaseEndsSession := by
  refine fun s => ⟨fun x hp => ⟨[.unmap, .close], List.Perm.refl _, ?_⟩, State.whenUsable_of_ne _⟩
  rcases execRelease_cases s with ⟨hne, -⟩ | ⟨-, -, he⟩
  · exact absurd hp (hne x)
  · exact he

end Sys2Proof.Proofs
end

section
/-! PROOFS. The output frame (42_output_frame.md): the bit at each offset of a frame (rules R34, R101) and the run an
answered transfer puts on the data line (rule R100). -/

namespace Sys2Proof.Machine

/-! ### The bit at an offset -/

@[simp] theorem length_byteBits (b : Byte) : (byteBits b).length = 8 := by simp [byteBits]

theorem getElem?_byteBits (b : Byte) {n : Nat} (hn : n < 8) : (byteBits b)[n]? = some (b.getLsbD (7 - n)) := by
  simp [byteBits, hn]

@[simp] theorem frameBits_cons (b : Byte) (l : List Byte) : frameBits (b :: l) = byteBits b ++ frameBits l :=
  List.flatMap_cons

@[simp] theorem length_frameBits (l : List Byte) : (frameBits l).length = 8 * l.length := by
  induction l with
  | nil => rfl
  | cons b l ih =>
    rw [frameBits_cons, List.length_append, ih, length_byteBits, List.length_cons, Nat.mul_succ, Nat.add_comm]

/-- Bit n of a frame is bit 7 - n mod 8 of byte n div 8, and there is none past the last byte (rule R101). -/
theorem getElem?_frameBits (l : List Byte) (n : Nat) :
    (frameBits l)[n]? = l[n / 8]?.map fun b => b.getLsbD (7 - n % 8) := by
  induction l generalizing n with
  | nil => rfl
  | cons b l ih =>
    rw [frameBits_cons]
    rcases Nat.lt_or_ge n 8 with hn | hn
    · rw [List.getElem?_append_left (by simpa using hn), getElem?_byteBits b hn, Nat.div_eq_of_lt hn,
        Nat.mod_eq_of_lt hn]
      rfl
    · obtain ⟨m, rfl⟩ := Nat.exists_eq_add_of_le' hn
      rw [List.getElem?_append_right (by simp), length_byteBits, Nat.add_sub_cancel, ih,
        Nat.add_div_right m (by decide), Nat.add_mod_right, List.getElem?_cons_succ]

/-- A transfer answered ok while HWR is the copy of IMG sends the frame of IMG's bytes (rules R100, R101). -/
theorem bitsSent_copied_ok {c : Cfg} {x : Session} (d : Nat) (hw : c.wireMsbFirst = true) (hx : x.hwr = .copied x.img) :
    bitsSent c x d .ok = frameBits (Memory.readBytes x.img 0 (x.bufLen c)) := by
  rw [bitsSent, shiftedBits, if_pos hw, hx, Hwr.payload_copied]

end Sys2Proof.Machine

/-! ### The obligation -/

namespace Sys2Proof.Proofs

open Sys2Proof.Machine

/-- Settles O35: the answer's step sends the frame of IMG's bytes, whose length and bits are known. -/
theorem okTransferShiftsTheFrame : Obligations.OkTransferShiftsTheFrame := by
  intro s x d rest hw hsym hp hx hcopy ha
  have hf : s.inFlight = some x := State.inFlight_eq_some.2 ⟨hp, by simp [hx]⟩
  have hbits := bitsSent_copied_ok s.draws hw hcopy
  have hlen : x.bufLen cfg = 9 * (x.ledCount + 4) := bufLen_cfg x.ledCount
  refine ⟨_, _, step_of_answer hsym hf ha, congrArg (fun bits => s.wire ++ [bits]) hbits, ?_, fun n hn => ?_⟩
  · rw [length_frameBits, Memory.length_readBytes, hlen]
  · have hbyte : n / 8 < x.bufLen cfg := by omega
    rw [getElem?_frameBits, x.getElem?_readBytes_img, Session.imgByte_of_lt hbyte]
    rfl

end Sys2Proof.Proofs
end

section
/-! PROOFS. The faults that only report (60_exceptions.md, rule R125): a command the phase does not admit (rule R126), a
refused LED count (rule R128), an index out of range (rule R123) and a word of no row (rule R127). -/

namespace Sys2Proof.Machine

variable {c : Cfg} {n : Nat} {s : State} {w : CommandWord} {rest : List HostEvent}

theorem construct_of_ne (hp : s.phase ≠ .unbuilt) : construct c n s = s.finish .notUsable := by
  unfold construct
  cases hs : s.phase with
  | unbuilt => exact absurd hs hp
  | usable x => rfl
  | released => rfl

theorem construct_of_not_ledCountOk (hp : s.phase = .unbuilt) (hn : ¬ LedCountOk c n) :
    construct c n s = s.finish .invalidLedCount := by
  simp only [construct, hp, if_neg hn, State.raise_eq]

/-- The two ways this hardware refuses an LED count, in numbers (rules R82, R128). -/
theorem not_ledCountOk_cfg_iff : ¬ LedCountOk cfg n ↔ n = 0 ∨ 2 ^ cfg.wordW ≤ 9 * (n + 1 + 3) := by
  rw [not_and_or, not_le, Nat.lt_one_iff, not_lt]
  rfl

/-- Outside USABLE every command of a session reports NotUsable (rule R126). -/
theorem execUnder_of_ne {i : Instr} (hp : ∀ x, s.phase ≠ .usable x)
    (hi : Instr.IsSetter i ∨ i = .commit ∨ i = .release) : execUnder c i s = .next (s.finish .notUsable) := by
  rcases hi with (⟨j, r, g, b, rfl⟩ | ⟨j, p, rfl⟩) | rfl | rfl
  · exact setColour_of_ne r g b hp
  · exact setColour_of_ne _ _ _ hp
  · exact State.whenUsable_of_ne _ hp
  · exact State.whenUsable_of_ne _ hp

/-- A command word of no row, once the block takes it, reports IllegalCommand (rule R127). -/
theorem step_of_illegal (hsym : s.symbols = []) (hf : s.inFlight = none) (hh : s.host = .command w :: rest)
    (hd : decode (.command w) = .error .illegalCommand) :
    step s = .next (({ s with host := rest } : State).finish .illegalCommand) := by
  have hmove : s.nextMove = .run (.command w) { s with host := rest } := by simp [State.nextMove, hsym, hf, hh]
  exact (runMove_of_run hmove).2 _ hd

end Sys2Proof.Machine

/-! ### The obligations -/

namespace Sys2Proof.Proofs

open Sys2Proof.Machine

/-- Settles O40: CONSTRUCT has its own phase check, the other commands share one. -/
theorem wrongPhaseOnlyReports : Obligations.WrongPhaseOnlyReports := by
  rintro s i (⟨hp, n, rfl⟩ | ⟨hp, hi⟩)
  · exact congrArg Host.Outcome.next (construct_of_ne hp)
  · rw [exec_eq]
    exact execUnder_of_ne hp (or_assoc.2 hi)

/-- Settles O14: the decoder rejects the word, and the step reports it. -/
theorem illegalWordOnlyReports : Obligations.IllegalWordOnlyReports :=
  fun _ _ _ hsym hf hh hconstruct hsetc hsetp hcommit hrelease =>
    step_of_illegal hsym hf hh (decode_command_eq_illegal_iff.2 ⟨hconstruct, hsetc, hsetp, hcommit, hrelease⟩)

/-- Settles O21: either cause makes the LED count not admitted. -/
theorem badLedCountOnlyReports : Obligations.BadLedCountOnlyReports :=
  fun _ _ hp hn => congrArg Host.Outcome.next (construct_of_not_ledCountOk hp (not_ledCountOk_cfg_iff.2 hn))

/-- Settles O27: both setters are the slot write, which checks the index. -/
theorem badIndexOnlyReports : Obligations.BadIndexOnlyReports :=
  fun _ _ _ r g b _ hp hi => ⟨setColour_of_le r g b hp hi, setColour_of_le _ _ _ hp hi⟩

end Sys2Proof.Proofs
end

section
/-! PROOFS. The reset event (70_reset_and_hazards.md, rules R140, R141): the step in which HOST resets the block between
two commands. -/

namespace Sys2Proof.Machine

/-- With no symbol and no transfer in flight, HOST's reset event is taken and resets the block (rule R140). -/
theorem step_of_reset {s : State} {rest : List HostEvent} (hsym : s.symbols = []) (hf : s.inFlight = none)
    (hh : s.host = .reset :: rest) : step s = .next ({ s with host := rest } : State).resetBlock := by
  have hmove : s.nextMove = .reset { s with host := rest } := by simp [State.nextMove, hsym, hf, hh]
  exact runMove_of_reset hmove

end Sys2Proof.Machine

/-! ### The obligations -/

namespace Sys2Proof.Proofs

open Sys2Proof.Machine

/-- Settles O17: the step is the reset of the block, which writes neither the records nor the inputs. -/
theorem resetEventClearsBlock : Obligations.ResetEventClearsBlock := by
  intro s rest hsym hf hh
  refine ⟨_, step_of_reset hsym hf hh, ?_⟩
  simp [State.resetBlock_eq, hsym]

end Sys2Proof.Proofs
end
